-- ==== Sys2Proof/Config.lean ====
section
/-! DEFINITION. The constants the spec fixes (00_scope.md R4), the parameters it leaves to the implementation (R5), and the free values (93_implementation_defined.md U13). -/

namespace Sys2Proof.Config

/-- `WSIZE` (R4): the number of Window slots. -/
abbrev WSIZE : Nat := 4096

/-- `IDXW` (R4): the bits of `match_position`. -/
abbrev IDXW : Nat := 12

/-- `LENBITS` (R4): the bits of `raw_length`. -/
abbrev LENBITS : Nat := 4

/-- `BREAK_EVEN` (R4): fixed once as `(1 + 12 + 4) / 9`, not recomputed per decode. -/
abbrev BREAK_EVEN : Nat := (1 + IDXW + LENBITS) / 9

/-- `POS_INIT` (R4): the Window write cursor at the start of a decode. -/
abbrev POS_INIT : BitVec 12 := 1

/-- `MASK_FIRST` (R4): the mask after a control-byte load. -/
abbrev MASK_FIRST : BitVec 9 := 1

/-- `MASK_RELOAD` (R4): the mask that demands a control-byte load. -/
abbrev MASK_RELOAD : BitVec 9 := 256

/-- The byte every Window slot holds after START (R16, R110). -/
abbrev WINDOW_FILL : BitVec 8 := 0

/-- The parameters the spec leaves to the implementation (R5; 92_eei_decisions.md D5), with the defaults it gives. They are an
argument of the model: a state holds those of its engine, no step changes them, and a claim over all states is a claim over all
widths (log 1). -/
structure Params where
  /-- `LENW`: the width in bits of `target_len` and `out_count`. -/
  lenw : Nat := 32
  /-- `INW`: the width in bits of `in_len` and `in_pos`. -/
  inw : Nat := 32
  deriving DecidableEq, Repr

/-- The width in bits of a host register: max(`LENW`, `INW`, 32) (10_state.md R33). -/
def Params.hostw (p : Params) : Nat := max (max p.lenw p.inw) 32

/-- Free values of the 8-bit registers that START leaves unspecified: `control`, `b0`, `b1` (U13, log 4). -/
opaque freeByte : Nat → BitVec 8

/-- Free values of `msrc` after START (U13, log 4). -/
opaque freeSlot : Nat → BitVec 12

/-- Free values of `cnt` after START, within the register's range 0..17 (10_state.md R25, U13, log 4). -/
opaque freeCopyCount : Nat → Fin 18

end Sys2Proof.Config
end

