-- ==== Sys2Proof/Word.lean ====
section
/-! DEFINITION. The word types of the engine's registers (10_state.md section 1), each of the width the spec gives. The counters and
lengths whose width is a parameter (R5) are natural numbers, as the spec allows; State.lean says which. -/

namespace Sys2Proof

/-- A byte of any of the three address spaces, and the registers `control`, `b0`, `b1` (R12, R18, R19). -/
abbrev Byte := BitVec 8

/-- A Window slot index: `pos`, `msrc`, `match_position` (R15, R20, R65). -/
abbrev Slot := BitVec 12

/-- The register `mask` (R13): nine bits hold every value it takes. -/
abbrev Mask := BitVec 9

/-- The register `cnt` and the copy counts (R25, R65): five bits. -/
abbrev CopyCount := BitVec 5

end Sys2Proof
end

