-- ==== Sys2Proof/Syntax.lean ====
section
/-! DEFINITION. The instructions of the engine, one constructor per row of the opcode map (30_encoding.md R71), the role a byte of
the stream takes (R60), and the textual notation for streams (R74). -/

namespace Sys2Proof

/-- The rows of the opcode map. A CONTROL byte, a LITERAL token, a MATCH token. -/
inductive Instr where
  /-- `CTL`, format C (R61, R81): a byte of eight flags, bit k for token k of the group. -/
  | ctl (flags : Byte)
  /-- `LIT`, format L (R63, R90): the byte to output. -/
  | lit (c : Byte)
  /-- `MATCH`, format M (R64, R106): `raw_length` and the absolute Window slot `match_position`. -/
  | matchRef (rawLength : BitVec 4) (position : Slot)
  deriving DecidableEq, Repr

/-- The role of the next bytes of the stream (R60): decided by the state of the engine, never by the bytes. A MATCH has its two
bytes in one role, `b0` then `b1`. -/
inductive Role where
  | control
  | literal
  | matchPair
  deriving DecidableEq, Repr

/-- Why the decoder answers with no instruction. There is no illegal encoding (R68): the bytes may only run out. -/
inductive DecodeError where
  /-- The stream ends before the token is complete (R126). -/
  | streamEnded
  deriving DecidableEq, Repr

/-- One line of a stream listing (R74). The numbers are as written; `WellFormed.lean` says which ones the notation allows. -/
inductive AsmLine where
  /-- `CTL 0xVV`, shown for the reader. -/
  | ctl (v : Nat)
  /-- `LIT 0xVV`. -/
  | lit (v : Nat)
  /-- `MATCH pos=P, len=M`, with `len` the `match_length`. -/
  | matchAt (pos len : Nat)
  deriving DecidableEq, Repr

end Sys2Proof
end

