-- ==== Sys2Proof/Machine/State.lean ====
section
/-! DEFINITION. The state of the engine as plain data (10_state.md), the reasons a step can stop, and the state after hard reset
(70_reset_and_hazards.md R145). -/

namespace Sys2Proof.Machine

/-- The state of the sequencer (R10). -/
inductive Phase where
  /-- No decode has been started since hard reset. -/
  | idle
  /-- Loop head. -/
  | query
  /-- A flag of 1 was delivered: one literal byte is to be read. -/
  | lit
  /-- A flag of 0 was delivered: `b0` is to be read. -/
  | mB0
  /-- `b0` is latched. -/
  | mB1
  /-- `b0` and `b1` are latched: decode, bounds check, clamp. -/
  | mChk
  /-- `cnt >= 1` bytes remain to be copied. -/
  | copy
  /-- The decode ended with `out_count = target_len`. -/
  | done
  /-- The decode ended with a fault. -/
  | error
  deriving DecidableEq, Repr

/-- The two error kinds the engine raises (R125). `InvalidRequest` is the caller's and has no value here (R128). -/
inductive EngineError where
  | malformedInput
  | invalidBackRef
  deriving DecidableEq, Repr

/-- The three address spaces (R40). -/
inductive Space where
  | cs
  | win
  | out
  deriving DecidableEq, Repr

/-- A memory: address and byte pairs in canonical form (`Memory.wf`, Machine/Ops.lean). -/
abbrev Memory := List Host.Cell

/-- What the host can do to the engine between two of its steps (43_decode_sequence.md R111). Reads have no effect on the state
and are functions (Machine/HostPort.lean). -/
inductive HostAction where
  /-- A write of host register `n` (R33). -/
  | writeReg (n : Nat) (v : Nat)
  /-- A write of one byte of `CS` (R40, R147). -/
  | writeStream (a : Nat) (b : Byte)
  /-- The signal `rst` (R145). -/
  | hardReset
  deriving DecidableEq, Repr

/-- Which agent moves next (R111): the sequencer by one step of R115, or the host. The model's own (log 5). -/
inductive Move where
  | sequencer
  | host (a : HostAction)
  deriving DecidableEq, Repr

/-- The state. Each register of a fixed width has it by its type. The counters and lengths whose width is a parameter are natural
numbers, as R5 allows: no step wraps one, and none outgrows its width (log 1). Each field's rule is named beside it. -/
structure State where
  /-- R5: the widths of this engine, an argument of the model; no step changes them (log 1) -/
  params : Config.Params
  /-- R10 -/
  phase : Phase
  /-- R11: `none` is NONE -/
  err : Option EngineError
  /-- R12 -/
  control : Byte
  /-- R13 -/
  mask : Mask
  /-- R15 -/
  pos : Slot
  /-- R16: `WIN` -/
  win : Memory
  /-- R18 -/
  b0 : Byte
  /-- R19 -/
  b1 : Byte
  /-- R20 -/
  msrc : Slot
  /-- R25 -/
  cnt : CopyCount
  /-- R21: the stream cursor, the program counter; `INW` bits -/
  inPos : Nat
  /-- R22; `INW` bits -/
  inLen : Nat
  /-- R23; `LENW` bits -/
  outCount : Nat
  /-- R24; `LENW` bits -/
  targetLen : Nat
  /-- R26: `CS`, the host's -/
  cs : Memory
  /-- R27: `OUT` -/
  out : Memory
  /-- R33: `x[2]`; `LENW` bits -/
  targetLenReg : Nat
  /-- R33: `x[3]`; `INW` bits -/
  inLenReg : Nat
  /-- The model's own: the agents' order of moves; when empty the sequencer runs alone (log 5). -/
  schedule : List Move
  /-- The model's own: the index of the next free value (log 4). -/
  freeCount : Nat
  deriving DecidableEq, Repr

/-- Why the machine stops. The engine's own error kinds are no stops: they are taken (R131, `raise`). -/
inductive Fault where
  /-- Raised by a step in IDLE, DONE or ERROR when no host move is due: no agent has a step (R111, R124). Safe (log 7). -/
  | noStep
  deriving DecidableEq, Repr

/-- Situations the model gives no meaning. -/
inductive Refusal where
  /-- Raised by an arm of `exec` for an instruction without a meaning; no arm does. Safe. -/
  | notModelled (mnemonic : String)
  /-- Raised by a StreamRead below `in_len` of a byte the host never placed (U16). Safe (log 8). -/
  | streamByteAbsent
  /-- Raised by a host write of `CS` while `phase` is in RUN (R35, R42, U16). Safe (log 8). -/
  | streamWrittenInRun
  /-- Raised by a host write of `CS` at an address of more than `INW` bits (R26, R40). Safe (log 8). -/
  | noSuchStreamAddress
  /-- Raised by a host access of a register number above 5 (U17). Safe (log 9). -/
  | noSuchHostRegister
  deriving DecidableEq, Repr

/-- The state after hard reset (R145) of an engine of any widths: `phase`, `err`, `in_pos`, `out_count` as the spec says; the rest is
unspecified there and has the values log 2 and log 3 name (DESIGN CHOICE). -/
def State.resetAt (p : Config.Params) : State where
  params := p
  phase := .idle
  err := none
  control := 0
  mask := Config.MASK_RELOAD
  pos := Config.POS_INIT
  win := []
  b0 := 0
  b1 := 0
  msrc := 0
  cnt := 0
  inPos := 0
  inLen := 0
  outCount := 0
  targetLen := 0
  cs := []
  out := []
  targetLenReg := 0
  inLenReg := 0
  schedule := []
  freeCount := 0

/-- The state after hard reset of the engine with the default widths (R5). -/
def State.reset : State := State.resetAt {}

end Sys2Proof.Machine
end

