-- ==== Sys2Proof/Machine/Flags.lean ====
section
/-! DEFINITION. The FlagCursor's flag computations (40_flag_cursor.md R80, R82). -/

namespace Sys2Proof.Machine

/-- The flag bit under the mask: `(control & mask[7:0]) != 0`; 1 is "literal follows" (R80, R82). -/
def flagBit (control : Byte) (mask : Mask) : Bool := decide (control &&& mask.setWidth 8 ≠ 0)

/-- The mask after a query: `mask << 1`, nine bits, 128 to 256 (R82). -/
def maskAdvance (mask : Mask) : Mask := mask <<< 1

/-- The phase a flag bit selects (R82). -/
def flagPhase (bit : Bool) : Phase := if bit then .lit else .mB0

end Sys2Proof.Machine
end

