-- ==== Sys2Proof/Machine/Ops.lean ====
section
/-! DEFINITION. The named operations over memories and registers (20_memory.md R41 to R46), taking an error
(60_exceptions.md R131), and the two ways out of ERROR, START and hard reset (R134; 43_decode_sequence.md R110;
70_reset_and_hazards.md R145). -/

namespace Sys2Proof.Machine

/-- What an address that a memory does not list reads as: a byte of `CS` or `OUT` has no value until it is placed or emitted, a
Window slot holds the zero fill (R16, R27, log 3). -/
def unlisted : Space → Option Byte
  | .cs => none
  | .win => some Config.WINDOW_FILL
  | .out => none

/-- The entry listed for an address. -/
def Memory.find : Memory → Nat → Option Byte
  | [], _ => none
  | (k, v) :: m, a => if k = a then some v else Memory.find m a

/-- `MemRead(space, a, 1)`. -/
def Memory.read (sp : Space) (m : Memory) (a : Nat) : Option Byte :=
  match Memory.find m a with
  | some v => some v
  | none => unlisted sp

/-- The memory without an address. -/
def Memory.erase : Memory → Nat → Memory
  | [], _ => []
  | (k, v) :: m, a => if k = a then m else (k, v) :: Memory.erase m a

/-- The memory with a byte listed at an address, the addresses kept rising. -/
def Memory.insert : Memory → Nat → Byte → Memory
  | [], a, b => [(a, b)]
  | (k, v) :: m, a, b =>
    if a < k then (a, b) :: (k, v) :: m
    else if k = a then (a, b) :: m
    else (k, v) :: Memory.insert m a b

/-- `MemWrite(space, a, 1, b)`: the canonical form is kept. -/
def Memory.write (sp : Space) (m : Memory) (a : Nat) (b : Byte) : Memory :=
  if unlisted sp = some b then Memory.erase m a else Memory.insert m a b

/-- The addresses rise strictly, from `lo` on. -/
def Memory.risesFrom : Nat → Memory → Bool
  | _, [] => true
  | lo, (k, _) :: m => decide (lo ≤ k) && Memory.risesFrom (k + 1) m

/-- The canonical form: rising addresses, and no entry equal to what an unlisted address reads as. -/
def Memory.wf (sp : Space) (m : Memory) : Bool :=
  Memory.risesFrom 0 m && m.all fun c => decide (unlisted sp ≠ some c.2)

/-- RUN (R10): the phases in which the sequencer has a step. -/
def Phase.inRun : Phase → Bool
  | .query | .lit | .mB0 | .mB1 | .mChk | .copy => true
  | .idle | .done | .error => false

/-- Taking an error (R131): "err <- K; phase <- ERROR", and nothing else. -/
def raise (k : EngineError) (s : State) : State := { s with err := some k, phase := .error }

/-- The cursor's part of a StreamRead that does not fault (R41). -/
def advance (s : State) : State := { s with inPos := s.inPos + 1 }

/-- A StreamRead whose byte is known from the decoded instruction (R41): the bounds test first, then the cursor. At the end of
the stream `MalformedInput` is taken and the cursor does not move. -/
def consume (k : State → State) (s : State) : State :=
  if s.inLen ≤ s.inPos then raise .malformedInput s else k (advance s)

/-- `StreamRead()` (R41): as `consume`, with the byte read from `CS`. A byte below `in_len` that the host never placed is outside
the model (U16, log 8). -/
def streamRead (k : Byte → State → State) (s : State) : Host.Outcome State Fault Refusal :=
  if s.inLen ≤ s.inPos then .next (raise .malformedInput s)
  else
    match Memory.read .cs s.cs s.inPos with
    | some v => .next (k v (advance s))
    | none => .refused .streamByteAbsent

/-- `Emit(c)` (R46). -/
def emit (c : Byte) (s : State) : State :=
  { s with out := Memory.write .out s.out s.outCount c, outCount := s.outCount + 1 }

/-- `WinWrite(c)` (R43). -/
def winWrite (c : Byte) (s : State) : State :=
  { s with win := Memory.write .win s.win s.pos.toNat c, pos := s.pos + 1 }

/-- `WinSlot(s)` (R44): a slot not listed holds the fill. -/
def winSlot (s : State) (slot : Slot) : Byte := (Memory.read .win s.win slot.toNat).getD Config.WINDOW_FILL

/-- `WinRead(d)` (R45). No rule calls it. -/
def winRead (s : State) (d : Slot) : Byte := winSlot s (s.pos - d)

/-- `Written(s)` (10_state.md R28): a function of `out_count`. -/
def written (s : State) (slot : Slot) : Bool :=
  decide (4096 ≤ s.outCount) || (decide (1 ≤ slot.toNat) && decide (slot.toNat ≤ s.outCount))

/-- START (R110) with its operands. `control`, `b0`, `b1`, `msrc`, `cnt` are left unspecified: free values (log 4). The old bytes
of `OUT` have no meaning: it lists none. -/
def start (inLen : Nat) (targetLen : Nat) (s : State) : State :=
  { s with
    inLen := inLen
    targetLen := targetLen
    err := none
    mask := Config.MASK_RELOAD
    win := []
    pos := Config.POS_INIT
    inPos := 0
    outCount := 0
    control := Config.freeByte s.freeCount
    b0 := Config.freeByte (s.freeCount + 1)
    b1 := Config.freeByte (s.freeCount + 2)
    msrc := Config.freeSlot s.freeCount
    cnt := BitVec.ofNat 5 (Config.freeCopyCount s.freeCount).val
    out := []
    phase := .query
    freeCount := s.freeCount + 3 }

/-- Hard reset (R145): the state after reset; `CS` is not engine state and stays, and so do the widths and the
model's own fields. -/
def hardReset (s : State) : State :=
  { State.resetAt s.params with cs := s.cs, schedule := s.schedule, freeCount := s.freeCount }

end Sys2Proof.Machine
end

