-- ==== Sys2Proof/Machine/Control.lean ====
section
/-! DEFINITION. The FlagCursor (40_flag_cursor.md): the control-byte load `CTL` (R81) and the flag query `FLAG` (R82). -/

namespace Sys2Proof.Machine

/-- The registers' part of `CTL` (R81): `control <- byte; mask <- 1`. -/
def loadControl (flags : Byte) (s : State) : State := { s with control := flags, mask := Config.MASK_FIRST }

/-- `CTL` (R81), as the instruction of the decoded byte. -/
def execCtl (flags : Byte) (s : State) : Host.Outcome State Fault Refusal := .next (consume (loadControl flags) s)

/-- `FLAG` (R82): test the bit under the mask, move the mask, select the token's phase. -/
def flagStep (s : State) : State :=
  { s with mask := maskAdvance s.mask, phase := flagPhase (flagBit s.control s.mask) }

end Sys2Proof.Machine
end

