-- ==== Sys2Proof/Machine/Literal.lean ====
section
/-! DEFINITION. The literal-copy datapath (41_literal.md R90). -/

namespace Sys2Proof.Machine

/-- The part of `LIT` after its StreamRead (R90): `Emit(c); WinWrite(c); phase <- QUERY`. -/
def putLiteral (c : Byte) (s : State) : State := { winWrite c (emit c s) with phase := .query }

/-- `LIT` (R90), as the instruction of the decoded byte. -/
def execLit (c : Byte) (s : State) : Host.Outcome State Fault Refusal := .next (consume (putLiteral c) s)

end Sys2Proof.Machine
end

