-- ==== Sys2Proof/WellFormed.lean ====
section
/-! DEFINITION. Well-formedness. Every instruction of the engine is well formed, since every byte is legal in every position
(30_encoding.md R68) and the operands' types hold exactly the encodable values; the checks are those of the notation (R74): the
ranges of a listing's numbers, and that a `CTL` line shown for the reader is the byte the grouping rule gives. -/

namespace Sys2Proof

/-- R68: "There is no illegal, reserved, hint or custom encoding." -/
def Instr.wellFormed : Instr → Bool
  | .ctl _ => true
  | .lit _ => true
  | .matchRef _ _ => true

/-- The ranges R74 gives the numbers of a line. -/
def AsmLine.inRange : AsmLine → Bool
  | .ctl v => decide (v < 256)
  | .lit v => decide (v < 256)
  | .matchAt pos len => decide (pos < 4096) && decide (1 ≤ len) && decide (len ≤ 16)

/-- Is the line a token, or a `CTL` line shown for the reader? -/
def AsmLine.isToken : AsmLine → Bool
  | .ctl _ => false
  | .lit _ => true
  | .matchAt _ _ => true

/-- The flag bits of the first `n` tokens of a listing, `k` being the bit of the next one (R74): 1 for a `LIT`, 0 for a `MATCH`. -/
def listingFlags : Nat → Nat → List AsmLine → Nat
  | 0, _, _ => 0
  | _ + 1, _, [] => 0
  | n + 1, k, .lit _ :: rest => 2 ^ k + listingFlags n (k + 1) rest
  | n + 1, k, .matchAt _ _ :: rest => listingFlags n (k + 1) rest
  | _ + 1, _, .ctl _ :: _ => 0

/-- The `CTL` lines of a listing, `k` tokens into the current group: each stands before its group, has a token after it, and
equals what the grouping rule gives (R74). -/
def listingControlsAgree : Nat → List AsmLine → Bool
  | _, [] => true
  | k, .ctl v :: rest =>
    decide (k % 8 = 0) && (rest.head?.map AsmLine.isToken == some true) && decide (v = listingFlags 8 0 rest) &&
      listingControlsAgree k rest
  | k, .lit _ :: rest => listingControlsAgree (k + 1) rest
  | k, .matchAt _ _ :: rest => listingControlsAgree (k + 1) rest

/-- A listing the notation of R74 allows. -/
def listingWellFormed (l : List AsmLine) : Bool := l.all AsmLine.inRange && listingControlsAgree 0 l

end Sys2Proof
end

