-- ==== Sys2Proof/Decode.lean ====
section
/-! DEFINITION. From bytes to instructions and back: the decoder (30_encoding.md R60 to R66), the encoder written from the same
tables, the logical encodings of the opcode table (R67, R71), and the assembler of listings (R74). -/

namespace Sys2Proof

/-- `raw_length = b0 >> 4 = b0[7:4]` (R65, R97). -/
def rawLengthOf (b0 : Byte) : BitVec 4 := (b0 >>> 4).setWidth 4

/-- `position_high = b0 & 0xF = b0[3:0]` (R65, R97). -/
def positionHighOf (b0 : Byte) : BitVec 4 := (b0 &&& 0xF).setWidth 4

/-- `match_position = (position_high << 8) | b1` (R65, R97). -/
def matchPositionOf (b0 b1 : Byte) : Slot := ((positionHighOf b0).setWidth 12 <<< 8) ||| b1.setWidth 12

/-- The first byte of a MATCH, `LLLLHHHH`: `(raw_length << 4) | (P >> 8)` (R64, R74). -/
def matchByte0 (rawLength : BitVec 4) (position : Slot) : Byte :=
  (rawLength.setWidth 8 <<< 4) ||| (position >>> 8).setWidth 8

/-- The second byte of a MATCH, `PPPPPPPP`: `P & 0xFF` (R64, R74). -/
def matchByte1 (position : Slot) : Byte := position.setWidth 8

/-- The decoder: total on any bytes, in the role the engine's state gives them (R60). The length of a token is told by its role
alone (R66); every byte value is legal in every role (R68). -/
def decode : Role → List Byte → Except DecodeError (Instr × List Byte)
  | .control, f :: rest => .ok (.ctl f, rest)
  | .control, [] => .error .streamEnded
  | .literal, c :: rest => .ok (.lit c, rest)
  | .literal, [] => .error .streamEnded
  | .matchPair, b0 :: b1 :: rest => .ok (.matchRef (rawLengthOf b0) (matchPositionOf b0 b1), rest)
  | .matchPair, [_] => .error .streamEnded
  | .matchPair, [] => .error .streamEnded

/-- The role in which an instruction's bytes are read. -/
def Instr.role : Instr → Role
  | .ctl _ => .control
  | .lit _ => .literal
  | .matchRef _ _ => .matchPair

/-- The encoder: the stream bytes of an instruction, the first one at the lowest address (R61, R63, R64). -/
def encode : Instr → List Byte
  | .ctl f => [f]
  | .lit c => [c]
  | .matchRef l p => [matchByte0 l p, matchByte1 p]

/-- The bits of a row's logical encoding (R67, opcode_table.json "width_bits"). -/
def Instr.logicalBits : Instr → Nat
  | .ctl _ => 8
  | .lit _ => 9
  | .matchRef _ _ => 17

/-- A row's logical encoding as one number, flag bit first: `HGFEDCBA`, `1 CCCCCCCC`, `0 LLLLHHHH PPPPPPPP` (R67, R71). -/
def encodeLogical : Instr → Nat
  | .ctl f => f.toNat
  | .lit c => 256 + c.toNat
  | .matchRef l p => 256 * (matchByte0 l p).toNat + (matchByte1 p).toNat

/-- The role and the stream bytes of a table word. The flag of a LIT (bit 8) or MATCH (bit 16) is no stream bit of the token: it
sits in the group's CONTROL byte (R67). A row is known by its length in whole bytes and its flag (log 13). -/
def tableWordBytes (nbits w : Nat) : Option (Role × List Byte) :=
  if nbits = 0 then none
  else if nbits ≤ 8 then some (.control, [BitVec.ofNat 8 w])
  else if nbits ≤ 16 then if w.testBit 8 then some (.literal, [BitVec.ofNat 8 w]) else none
  else if nbits ≤ 24 then
    if w.testBit 16 then none else some (.matchPair, [BitVec.ofNat 8 (w / 256), BitVec.ofNat 8 w])
  else none

/-- The instruction the decoder reads from a table word laid out as the stream stores it. -/
def decodeTableWord (nbits w : Nat) : Option Instr :=
  match tableWordBytes nbits w with
  | none => none
  | some (r, bytes) =>
    match decode r bytes with
    | .ok (i, _) => some i
    | .error _ => none

/-- The token a line of a listing stands for (R74); none for a `CTL` line. -/
def AsmLine.token : AsmLine → Option Instr
  | .ctl _ => none
  | .lit v => some (.lit (BitVec.ofNat 8 v))
  | .matchAt pos len => some (.matchRef (BitVec.ofNat 4 (len - 1)) (BitVec.ofNat 12 pos))

/-- The CONTROL byte of a group (R74): bit `k` is 1 when the `(k+1)`-th token is a literal, the bits above the last token are 0. -/
def controlBits : Nat → List Instr → Byte
  | _, [] => 0
  | k, .lit _ :: rest => (1#8 <<< k) ||| controlBits (k + 1) rest
  | k, .matchRef _ _ :: rest => controlBits (k + 1) rest
  | k, .ctl _ :: rest => controlBits (k + 1) rest

/-- The bytes of one group: its CONTROL byte, then its tokens' bytes in order (R60). No tokens, no CONTROL byte. -/
def groupBytes : List Instr → List Byte
  | [] => []
  | t :: ts => controlBits 0 (t :: ts) :: (t :: ts).flatMap encode

/-- The stream of a list of tokens, packed eight to a group; `group` holds the tokens of the group being filled (R74). -/
def packTokens (group : List Instr) : List Instr → List Byte
  | [] => groupBytes group
  | t :: ts =>
    if group.length = 7 then groupBytes (group ++ [t]) ++ packTokens [] ts
    else packTokens (group ++ [t]) ts

/-- The assembler of R74: the stream of a listing. -/
def assemble (l : List AsmLine) : List Byte := packTokens [] (l.filterMap AsmLine.token)

end Sys2Proof
end

