-- ==== Sys2Proof/Machine/Operands.lean ====
section
/-! DEFINITION. The operands of a MATCH: the quantities that are combinational functions of the state and not state themselves
(10_state.md R30; 42_match.md R97 to R102). The bit fields of the pair are in Decode.lean. -/

namespace Sys2Proof.Machine

/-- `match_length = raw_length + BREAK_EVEN`, five bits, 1..16 (R98). -/
def matchLength (rawLength : BitVec 4) : CopyCount := rawLength.setWidth 5 + BitVec.ofNat 5 Config.BREAK_EVEN

/-- `d0 = (pos - match_position) mod 4096` (R99). -/
def distance0 (pos position : Slot) : Slot := pos - position

/-- `d`: how many writes ago the slot was written, `d0` with 0 read as 4096, thirteen bits (R99, R107). -/
def distance (pos position : Slot) : BitVec 13 :=
  if distance0 pos position = 0 then 4096 else (distance0 pos position).setWidth 13

/-- The bounds checker's verdict: the back-reference is invalid when `d > T` (R99), compared as unsigned numbers (R107). -/
def backRefInvalid (pos position : Slot) (outCount : Nat) : Bool :=
  decide (outCount < (distance pos position).toNat)

/-- The remaining budget `R = target_len - out_count` (R101), never negative (R107; log 16). -/
def budget (targetLen outCount : Nat) : Nat := targetLen - outCount

/-- `copy_count` (R101): `match_length + 1` when `match_length < R`, compared as unsigned numbers, else `R`, which is then at most 16
and fits. -/
def copyCount (rawLength : BitVec 4) (targetLen outCount : Nat) : CopyCount :=
  if (matchLength rawLength).toNat < budget targetLen outCount then matchLength rawLength + 1
  else BitVec.ofNat 5 (budget targetLen outCount)

end Sys2Proof.Machine
end

