-- ==== Sys2Proof/Machine/MatchCopy.lean ====
section
/-! DEFINITION. The match-copy datapath (42_match.md): the sub-steps MATCH.B0 (R95), MATCH.B1 (R96), MATCH.CHK (R100), MATCH.COPY
(R103), and the whole token as their composition (R106). -/

namespace Sys2Proof.Machine

/-- `MATCH.B0` after its StreamRead (R95). -/
def latchB0 (b : Byte) (s : State) : State := { s with b0 := b, phase := .mB1 }

/-- `MATCH.B1` after its StreamRead (R96). -/
def latchB1 (b : Byte) (s : State) : State := { s with b1 := b, phase := .mChk }

/-- `MATCH.CHK` (R100): decode the latched pair, check the back-reference, clamp, set up the copy. -/
def matchCheck (s : State) : State :=
  if backRefInvalid s.pos (matchPositionOf s.b0 s.b1) s.outCount then raise .invalidBackRef s
  else
    { s with
      msrc := matchPositionOf s.b0 s.b1
      cnt := copyCount (rawLengthOf s.b0) s.targetLen s.outCount
      phase := .copy }

/-- `MATCH.COPY` (R103): one byte; the slot is read first, then the byte is emitted and written to the Window. -/
def copyStep (s : State) : State :=
  let c := winSlot s s.msrc
  let t := winWrite c (emit c s)
  { t with msrc := s.msrc + 1, cnt := s.cnt - 1, phase := if s.cnt - 1 = 0 then .query else .copy }

/-- `n` copy steps. -/
def copySteps : Nat → State → State
  | 0, s => s
  | n + 1, s => copySteps n (copyStep s)

/-- The rest of a MATCH from M_CHK on: the check, then the whole copy unless the check faulted (R106). -/
def matchFinish (s : State) : State :=
  let t := matchCheck s
  if t.phase = .copy then copySteps t.cnt.toNat t else t

/-- `MATCH` as one big step (R106), as the instruction of the decoded pair. Either byte may be missing (R126); a pair cut short
has its first byte consumed and latched (R96). -/
def execMatchRef (rawLength : BitVec 4) (position : Slot) (s : State) : Host.Outcome State Fault Refusal :=
  .next (consume
    (fun t => consume (fun u => matchFinish (latchB1 (matchByte1 position) u)) (latchB0 (matchByte0 rawLength position) t)) s)

end Sys2Proof.Machine
end

