-- ==== Sys2Proof/Machine/Dispatch.lean ====
section
/-! DEFINITION. One arm per instruction, each one call of its meaning. -/

namespace Sys2Proof.Machine

def exec (i : Instr) (s : State) : Host.Outcome State Fault Refusal :=
  match i with
  | .ctl flags => Sys2Proof.Machine.execCtl flags s
  | .lit c => Sys2Proof.Machine.execLit c s
  | .matchRef rawLength position => Sys2Proof.Machine.execMatchRef rawLength position s

end Sys2Proof.Machine
end

