-- ==== Sys2Proof/Machine/Sequencer.lean ====
section
/-! DEFINITION. The sequencer: the loop head QUERY and DONE (43_decode_sequence.md R112, R113), the phase machine's one step
(R115), and the fetch of a token (30_encoding.md R60). -/

namespace Sys2Proof.Machine

/-- `DONE` (R113). -/
def finishDecode (s : State) : State := { s with phase := .done }

/-- `QUERY` (R112): the completion test first, then the control-byte load or the flag query. -/
def queryStep (s : State) : Host.Outcome State Fault Refusal :=
  if s.outCount = s.targetLen then .next (finishDecode s)
  else if s.mask = Config.MASK_RELOAD then streamRead loadControl s
  else .next (flagStep s)

/-- One step of the phase machine: the row of R115 that `phase` selects. IDLE, DONE and ERROR have none (R111). -/
def seqStep (s : State) : Host.Outcome State Fault Refusal :=
  match s.phase with
  | .query => queryStep s
  | .lit => streamRead putLiteral s
  | .mB0 => streamRead latchB0 s
  | .mB1 => streamRead latchB1 s
  | .mChk => .next (matchCheck s)
  | .copy => .next (copyStep s)
  | .idle => .fault .noStep
  | .done => .fault .noStep
  | .error => .fault .noStep

/-- The role of the next byte of the stream, when the state is at the beginning of an instruction (R60): a CONTROL byte at the
loop head when a flag is needed and `mask = 256`, a literal after a flag of 1, a pair after a flag of 0. -/
def fetchRole (s : State) : Option Role :=
  match s.phase with
  | .query => if s.outCount ≠ s.targetLen ∧ s.mask = Config.MASK_RELOAD then some .control else none
  | .lit => some .literal
  | .mB0 => some .matchPair
  | .mB1 | .mChk | .copy | .idle | .done | .error => none

/-- Up to `n` bytes of the stream from address `a` on: those below `in_len` that the host placed. -/
def streamBytes (s : State) : Nat → Nat → List Byte
  | 0, _ => []
  | n + 1, a =>
    if a < s.inLen then
      match Memory.read .cs s.cs a with
      | some v => v :: streamBytes s n (a + 1)
      | none => []
    else []

/-- The instruction at the stream cursor: none between instructions, and none when its bytes are not all there. -/
def fetch (s : State) : Option Instr :=
  match fetchRole s with
  | none => none
  | some r =>
    match decode r (streamBytes s 2 s.inPos) with
    | .ok (i, _) => some i
    | .error _ => none

end Sys2Proof.Machine
end

