-- ==== Sys2Proof/Machine/HostPort.lean ====
section
/-! DEFINITION. The host's side (10_state.md R32 to R35): register writes and the commands they issue, register reads, the output
ports, the result of a run (43_decode_sequence.md R121), and a token placed for the next step (log 12). -/

namespace Sys2Proof.Machine

/-- A write of 1 to CTRL.START (R110, R122): ignored in RUN; the operands are the staging registers (R33). -/
def startCommand (s : State) : State := if s.phase.inRun then s else start s.inLenReg s.targetLenReg s

/-- A write of host register `n` (R33). CTRL's bits above 0 are ignored, read-only registers ignore writes, a staging register
keeps the bits of its own width and ignores those above; a number above 5 is no register (U17). -/
def hostWrite (n : Nat) (v : Nat) (s : State) : Host.Outcome State Fault Refusal :=
  match n with
  | 0 => .next (if v.testBit 0 then startCommand s else s)
  | 1 => .next s
  | 2 => .next { s with targetLenReg := v % 2 ^ s.params.lenw }
  | 3 => .next { s with inLenReg := v % 2 ^ s.params.inw }
  | 4 => .next s
  | 5 => .next s
  | _ => .refused .noSuchHostRegister

/-- A host write of one byte of `CS`, outside RUN only (R35, R42), at an address of `INW` bits (R26). -/
def hostWriteStream (a : Nat) (b : Byte) (s : State) : Host.Outcome State Fault Refusal :=
  if s.phase.inRun then .refused .streamWrittenInRun
  else if 2 ^ s.params.inw ≤ a then .refused .noSuchStreamAddress
  else .next { s with cs := Memory.write .cs s.cs a b }

/-- One move of the host (R111). -/
def hostStep (a : HostAction) (s : State) : Host.Outcome State Fault Refusal :=
  match a with
  | .writeReg n v => hostWrite n v s
  | .writeStream a b => hostWriteStream a b s
  | .hardReset => .next (hardReset s)

/-- STATUS.STATE (R34). -/
def statusState : Phase → BitVec 2
  | .idle => 0
  | .query | .lit | .mB0 | .mB1 | .mChk | .copy => 1
  | .done => 2
  | .error => 3

/-- STATUS.ERR (R34, 60_exceptions.md R129); 3 is never produced (R128). -/
def errCode : Option EngineError → BitVec 2
  | none => 0
  | some .malformedInput => 1
  | some .invalidBackRef => 2

/-- STATUS (R34): STATE in bits 1:0, ERR in bits 3:2, the rest 0. -/
def statusWord (s : State) : Nat := (errCode s.err ++ statusState s.phase).toNat

/-- The state a decode is in `moment` steps of R115 after `s`, or the last one it is in before it leaves RUN or stops. -/
def intermediate : Nat → State → State
  | 0, s => s
  | moment + 1, s =>
    match seqStep s with
    | .next t => if t.phase.inRun then intermediate moment t else s
    | .fault _ => s
    | .refused _ => s

/-- The state whose counters a host read shows (R35): outside RUN the current one; in RUN "some reachable intermediate state" of the
decode that runs, its operands being `in_len` and `target_len`. Which one is the argument `moment`, and nothing constrains it (log 10). -/
def shownState (moment : Nat) (s : State) : State :=
  if s.phase.inRun then intermediate moment (start s.inLen s.targetLen s) else s

/-- A read of host register `n` (R33, R35): no side effect; unused high bits read 0, the content being a number of its own width; a
number above 5 is no register (U17). `moment` is free: OUT_COUNT and IN_COUNT read in RUN show any moment of the decode (log 10). -/
def hostRead (moment n : Nat) (s : State) : Except Refusal Nat :=
  match n with
  | 0 => .ok 0
  | 1 => .ok (statusWord s)
  | 2 => .ok s.targetLenReg
  | 3 => .ok s.inLenReg
  | 4 => .ok (shownState moment s).outCount
  | 5 => .ok (shownState moment s).inPos
  | _ => .error .noSuchHostRegister

/-- The port `done` (R32, R137). -/
def doneLine (s : State) : Bool := decide (s.phase = .done)

/-- The port `error` (R32, R137). -/
def errorLine (s : State) : Bool := decide (s.phase = .error)

/-- The port `cs_addr` (R32). -/
def csAddr (s : State) : Nat := s.inPos

/-- The port `out_addr` (R32), before the write of a step. -/
def outAddr (s : State) : Nat := s.outCount

/-- A host read of `OUT` (20_memory.md R58): a byte of the result in DONE, no value elsewhere (log 11). -/
def hostReadOut (a : Nat) (s : State) : Option Byte :=
  if s.phase = .done ∧ a < s.targetLen then Memory.read .out s.out a else none

/-- The result of a decode (R121). -/
inductive DecodeResult where
  | ok (bytes : List Byte)
  | err (k : EngineError)
  deriving DecidableEq, Repr

/-- `OUT[0 .. n)`. -/
def outBytes (s : State) (n : Nat) : List Byte := (List.range n).filterMap fun a => Memory.read .out s.out a

/-- The result read off a final state (R121); none while the run goes on or before the first one. -/
def decodeResult (s : State) : Option DecodeResult :=
  match s.phase with
  | .done => some (.ok (outBytes s s.targetLen))
  | .error => s.err.map DecodeResult.err
  | .idle | .query | .lit | .mB0 | .mB1 | .mChk | .copy => none

/-- The phase in which a role's bytes are read (R60). -/
def rolePhase : Role → Phase
  | .control => .query
  | .literal => .lit
  | .matchPair => .mB0

/-- Bytes written to `CS` from an address on. -/
def placeBytes (m : Memory) : Nat → List Byte → Memory
  | _, [] => m
  | a, b :: bs => placeBytes (Memory.write .cs m a b) (a + 1) bs

/-- Where a placed token goes: the stream cursor, or address 0 when the token would not fit below 2^`INW` (log 12). -/
def placeBase (s : State) (n : Nat) : Nat := if s.inPos + n < 2 ^ s.params.inw then s.inPos else 0

/-- The state whose next step fetches and runs the instruction of `bytes` in role `r`: the bytes in `CS` at the cursor, the stream
long enough, the role's phase, a reload due for a CONTROL byte, output still wanted, no other move due (log 12). -/
def placeToken (r : Role) (bytes : List Byte) (s : State) : State :=
  let base := placeBase s bytes.length
  let stop := base + bytes.length
  { s with
    schedule := []
    phase := rolePhase r
    mask := if r = .control then Config.MASK_RELOAD else s.mask
    inPos := base
    inLen := if s.inLen < stop then stop else s.inLen
    targetLen := if s.outCount < s.targetLen then s.targetLen else s.outCount + 1
    cs := placeBytes s.cs base bytes }

end Sys2Proof.Machine
end

