-- ==== Sys2Proof/Machine/Step.lean ====
section
/-! DEFINITION. One step of the machine (43_decode_sequence.md R111). With an empty schedule the sequencer runs alone: where an
instruction begins it is fetched and executed whole, elsewhere the phase machine takes its one step. With a schedule the agents
move in its order, the sequencer by one step of R115 at a time (log 5, log 6). -/

namespace Sys2Proof.Machine

def step (s : State) : Host.Outcome State Fault Refusal :=
  match s.schedule with
  | [] =>
    match fetch s with
    | some i => exec i s
    | none => seqStep s
  | .sequencer :: rest => seqStep { s with schedule := rest }
  | .host a :: rest => hostStep a { s with schedule := rest }

/-- The state with a table word placed where the next step fetches (log 12, log 13). -/
def State.withFetchWord (s : State) (nbits w : Nat) : State :=
  match tableWordBytes nbits w with
  | none => s
  | some (r, bytes) => placeToken r bytes s

end Sys2Proof.Machine
end

