-- ==== Sys2Proof/Machine/Reference.lean ====
section
/-! DEFINITION. The whole decode as one function (43_decode_sequence.md R114), written from the rule's own program over natural
numbers and apart from the machine, for the claim that the machine computes it. -/

namespace Sys2Proof.Machine

/-- The variables of R114's program. `win` is `WIN[0..4095]`, `out` the output so far. -/
structure DecodeVars where
  mask : Nat
  control : Nat
  pos : Nat
  win : Nat → Byte
  inPos : Nat
  out : List Byte

/-- What the program returns with `Err(kind)` (R114): the kind, and the variables where it stopped, whose final values the rule
compares too. -/
structure DecodeFault where
  kind : EngineError
  final : DecodeVars

/-- "mask <- 256; pos <- 1; in_pos <- 0; out <- []; WIN[0..4095] <- 0x00" (R114). The program gives `control` no value before its
first load (R110, U13): the 0 here is the model's own (DESIGN CHOICE, log 17), and it is what `refDecode` answers for `control` when
no CONTROL byte is read. -/
def refInit : DecodeVars := { mask := 256, control := 0, pos := 1, win := fun _ => 0, inPos := 0, out := [] }

/-- `read()` (R114). -/
def refRead (cs : List Byte) (v : DecodeVars) : Except DecodeFault (Byte × DecodeVars) :=
  match cs[v.inPos]? with
  | none => .error { kind := .malformedInput, final := v }
  | some b => .ok (b, { v with inPos := v.inPos + 1 })

/-- `put(c)` (R114). -/
def refPut (c : Byte) (v : DecodeVars) : DecodeVars :=
  { v with
    out := v.out ++ [c]
    win := fun a => if a = v.pos then c else v.win a
    pos := (v.pos + 1) % 4096 }

/-- "for i in 0 .. cc: put(WIN[(mp + i) mod 4096])" (R114), from `i` on for `n` bytes. -/
def refCopy (mp : Nat) : Nat → Nat → DecodeVars → DecodeVars
  | 0, _, v => v
  | n + 1, i, v => refCopy mp n (i + 1) (refPut (v.win ((mp + i) % 4096)) v)

/-- "if mask == 256: control <- read(); mask <- 1" (R114). -/
def refReload (cs : List Byte) (v : DecodeVars) : Except DecodeFault DecodeVars :=
  if v.mask = 256 then
    match refRead cs v with
    | .error e => .error e
    | .ok (b, v) => .ok { v with control := b.toNat, mask := 1 }
  else .ok v

/-- The MATCH branch of the loop (R114). -/
def refMatch (cs : List Byte) (n : Nat) (v : DecodeVars) : Except DecodeFault DecodeVars :=
  match refRead cs v with
  | .error e => .error e
  | .ok (b0, v) =>
    match refRead cs v with
    | .error e => .error e
    | .ok (b1, v) =>
      let mp := (b0.toNat % 16) * 256 + b1.toNat
      let ml := b0.toNat / 16 + 1
      let d0 := (v.pos + 4096 - mp) % 4096
      let d := if d0 = 0 then 4096 else d0
      if v.out.length < d then .error { kind := .invalidBackRef, final := v }
      else
        let r := n - v.out.length
        let cc := if ml < r then ml + 1 else r
        .ok (refCopy mp cc 0 v)

/-- One pass through the loop's body (R114). -/
def refToken (cs : List Byte) (n : Nat) (v : DecodeVars) : Except DecodeFault DecodeVars :=
  match refReload cs v with
  | .error e => .error e
  | .ok v =>
    let bit := v.control / v.mask % 2
    let v := { v with mask := v.mask * 2 }
    if bit = 1 then
      match refRead cs v with
      | .error e => .error e
      | .ok (c, v) => .ok (refPut c v)
    else refMatch cs n v

/-- "while len(out) < N" (R114), under a bound on the passes. -/
def refLoop (cs : List Byte) (n : Nat) : Nat → DecodeVars → Except DecodeFault DecodeVars
  | 0, v => .ok v
  | fuel + 1, v =>
    if v.out.length < n then
      match refToken cs n v with
      | .error e => .error e
      | .ok v => refLoop cs n fuel v
    else .ok v

/-- `decode(CS[0..L), N)` (R114), with the final variables, of a fault too. `N` passes are enough, each emitting a byte or faulting (R119). -/
def refDecode (cs : List Byte) (n : Nat) : Except DecodeFault DecodeVars := refLoop cs n n refInit

/-- The literal-only stream of R92 (41_literal.md): a CONTROL byte `0xFF` before each eight literals, the last group the shorter one;
`k` literals of the current group stand already. -/
def literalStream : Nat → List Byte → List Byte
  | _, [] => []
  | k, c :: cs =>
    if k = 0 then 0xFF :: c :: literalStream 1 cs
    else c :: literalStream (if k = 7 then 0 else k + 1) cs

end Sys2Proof.Machine
end

