-- ==== Sys2Proof/Safety.lean ====
section
/-! DEFINITION. What the claims speak of: the invariants of a run (10_state.md R11 to R28), the runs themselves, a placed stream,
two states that the same decode cannot tell apart (43_decode_sequence.md R117), and two that differ in unwritten Window slots only
(70_reset_and_hazards.md R156). -/

namespace Sys2Proof.Machine

/-- The nine values of `mask` (R13). -/
abbrev maskValues : List Mask := [1, 2, 4, 8, 16, 32, 64, 128, 256]

/-- The invariants of registers and counters. Those about a decode are asked of every phase but IDLE, where no decode has begun. -/
structure EngineInv (s : State) : Prop where
  /-- The three memories are canonical. -/
  csWf : Memory.wf .cs s.cs = true
  winWf : Memory.wf .win s.win = true
  outWf : Memory.wf .out s.out = true
  /-- The Window has slots 0 to 4095 and no other (R16). -/
  winSlots : ∀ c ∈ s.win, c.1 < 4096
  /-- "`err != NONE` exactly when `phase = ERROR`" (R11). -/
  errIff : s.err ≠ none ↔ s.phase = .error
  /-- `mask` takes exactly nine values (R13, R14). -/
  maskValue : s.phase ≠ .idle → s.mask ∈ maskValues
  /-- `pos = (1 + out_count) mod 4096` (R17). -/
  posOut : s.phase ≠ .idle → s.pos.toNat = (1 + s.outCount) % 4096
  /-- `in_pos <= in_len` (R21). -/
  inBound : s.phase ≠ .idle → s.inPos ≤ s.inLen
  /-- `out_count <= target_len` (R23). -/
  outBound : s.phase ≠ .idle → s.outCount ≤ s.targetLen
  /-- Inside a token output is still wanted (R90, R101). -/
  wanted : s.phase ∈ [Phase.lit, .mB0, .mB1, .mChk, .copy] → s.outCount < s.targetLen
  /-- In COPY `cnt >= 1` and `cnt <= target_len - out_count` (R25). -/
  copyBudget : s.phase = .copy → 1 ≤ s.cnt.toNat ∧ s.cnt.toNat ≤ s.targetLen - s.outCount
  /-- `cnt` is in 0..17 (R25). -/
  cntRange : s.phase ≠ .idle → s.cnt.toNat ≤ 17
  /-- In COPY the next source slot has been written (R105). -/
  copySource : s.phase = .copy → backRefInvalid s.pos s.msrc s.outCount = false
  /-- In DONE `out_count = target_len` (R23, R113). -/
  doneFull : s.phase = .done → s.outCount = s.targetLen

/-- Every counter, length and staging register is a number of its register's width, whatever the widths of the engine (R5, R21 to
R24, R33). -/
structure WidthInv (s : State) : Prop where
  targetLenReg : s.targetLenReg < 2 ^ s.params.lenw
  inLenReg : s.inLenReg < 2 ^ s.params.inw
  targetLen : s.targetLen < 2 ^ s.params.lenw
  inLen : s.inLen < 2 ^ s.params.inw
  outCount : s.outCount < 2 ^ s.params.lenw
  inPos : s.inPos < 2 ^ s.params.inw

/-- The Window and the output (R17, R27): the output is listed exactly below `out_count`; output byte `j`, if among the last 4096,
is in slot `(1 + j) mod 4096`; a slot not written in this decode holds the fill. -/
structure WindowInv (s : State) : Prop where
  outListed : s.phase ≠ .idle → ∀ a : Nat, (Memory.read .out s.out a).isSome = true ↔ a < s.outCount
  mirror : s.phase ≠ .idle → ∀ j : Nat, j < s.outCount → s.outCount ≤ j + 4096 →
    Memory.read .out s.out j = some (winSlot s (BitVec.ofNat 12 (1 + j)))
  fill : s.phase ≠ .idle → ∀ slot : Slot, written s slot = false → winSlot s slot = Config.WINDOW_FILL

/-- Every byte of the output equals some byte of the stream below the cursor. It does not say that this byte was a literal. -/
def OutFromStream (s : State) : Prop :=
  ∀ (a : Nat) (b : Byte), Memory.read .out s.out a = some b →
    ∃ i : Nat, i < s.inPos ∧ Memory.read .cs s.cs i = some b

/-- Two states that differ at most in the bytes of Window slots not written in this decode (R28, R156). -/
structure SameWrittenSlots (s t : State) : Prop where
  rest : t = { s with win := t.win }
  slots : ∀ slot : Slot, written s slot = true → winSlot t slot = winSlot s slot

/-- `n` steps of the phase machine (R115), one after the other. -/
def seqSteps : Nat → State → Host.Outcome State Fault Refusal
  | 0, s => .next s
  | n + 1, s =>
    match seqStep s with
    | .next t => seqSteps n t
    | .fault r => .fault r
    | .refused r => .refused r

/-- `n` steps of the whole machine. -/
def runSteps : Nat → State → Host.Outcome State Fault Refusal
  | 0, s => .next s
  | n + 1, s =>
    match step s with
    | .next t => runSteps n t
    | .fault r => .fault r
    | .refused r => .refused r

/-- The host placed every byte below a length (R147, duty 2). -/
def StreamPlaced (s : State) (l : Nat) : Prop := ∀ a : Nat, a < l → (Memory.read .cs s.cs a).isSome = true

/-- `CS[0..L)` is a given list of bytes. -/
def StreamIs (s : State) (bytes : List Byte) : Prop :=
  ∀ a : Nat, a < bytes.length → Memory.read .cs s.cs a = bytes[a]?

/-- Two states that agree on everything a decode can still read (R117): all but `CS` at and beyond `in_len`, the latches not yet
written in this token, `control` before its load, the staging registers, the widths of the engine (R5), and the model's own counter. -/
structure SameDecode (s t : State) : Prop where
  phase : s.phase = t.phase
  err : s.err = t.err
  mask : s.mask = t.mask
  pos : s.pos = t.pos
  win : s.win = t.win
  inPos : s.inPos = t.inPos
  inLen : s.inLen = t.inLen
  outCount : s.outCount = t.outCount
  targetLen : s.targetLen = t.targetLen
  out : s.out = t.out
  stream : ∀ a : Nat, a < s.inLen → Memory.read .cs s.cs a = Memory.read .cs t.cs a
  control : s.mask ≠ Config.MASK_RELOAD → s.control = t.control
  b0 : s.phase ∈ [Phase.mB1, .mChk] → s.b0 = t.b0
  b1 : s.phase = .mChk → s.b1 = t.b1
  msrc : s.phase = .copy → s.msrc = t.msrc
  cnt : s.phase = .copy → s.cnt = t.cnt

/-- Two outcomes alike: both next states of the same decode, or the same stop. -/
def SameOutcome : Host.Outcome State Fault Refusal → Host.Outcome State Fault Refusal → Prop
  | .next s, .next t => SameDecode s t
  | .fault a, .fault b => a = b
  | .refused a, .refused b => a = b
  | .next _, .fault _ => False
  | .next _, .refused _ => False
  | .fault _, .next _ => False
  | .fault _, .refused _ => False
  | .refused _, .next _ => False
  | .refused _, .fault _ => False

/-- The decode is over (R124). -/
def Phase.ended : Phase → Bool
  | .done | .error => true
  | .idle | .query | .lit | .mB0 | .mB1 | .mChk | .copy => false

end Sys2Proof.Machine
end

