-- ==== Sys2Proof/Certificates/Slice0/Obligations.lean ====
section
/-! DEFINITION. The statements for the provers, one definition each. -/

open Sys2Proof Sys2Proof.Machine

/-! ### Encoding -/

/-- R63 to R67: decoding the encoding of an instruction, in its role and with anything after it, gives it back with every operand;
what decodes is the encoding of what it decodes to; and the table's logical word of an instruction decodes to it. -/
def Obligations.DecodeEncodeAgree : Prop :=
  (∀ (i : Instr) (rest : List Byte), i.wellFormed = true → decode i.role (encode i ++ rest) = .ok (i, rest)) ∧
  (∀ (r : Role) (bytes rest : List Byte) (i : Instr), decode r bytes = .ok (i, rest) →
    i.role = r ∧ i.wellFormed = true ∧ bytes = encode i ++ rest) ∧
  (∀ i : Instr, i.wellFormed = true → decodeTableWord i.logicalBits (encodeLogical i) = some i)

/-- R66, R68: the length of a token is told by its role alone, and no byte is refused for its value: with enough bytes the decoder
answers an instruction, with too few it says that the stream ended. -/
def Obligations.EveryByteDecodes : Prop :=
  (∀ (b : Byte) (rest : List Byte), decode .control (b :: rest) = .ok (.ctl b, rest)) ∧
  (∀ (b : Byte) (rest : List Byte), decode .literal (b :: rest) = .ok (.lit b, rest)) ∧
  (∀ (b0 b1 : Byte) (rest : List Byte), ∃ l p, decode .matchPair (b0 :: b1 :: rest) = .ok (.matchRef l p, rest)) ∧
  (decode .control [] = .error .streamEnded ∧ decode .literal [] = .error .streamEnded ∧
    decode .matchPair [] = .error .streamEnded ∧ ∀ b : Byte, decode .matchPair [b] = .error .streamEnded)

/-- Bytes written out bit by bit from the spec's encodings (R61, R63, R64) decode in their roles to the instructions they stand for:
a sanity check. The table words of the last four clauses, which carry the flag of R67's logical encodings above the token's bits and
are padded to whole bytes, are laid out by the model's own convention (log 13, DESIGN CHOICE). -/
def Obligations.WrittenWordsDecode : Prop :=
  decode .control [0b10000001] = .ok (.ctl 0x81, []) ∧
  decode .literal [0b01000001] = .ok (.lit 0x41, []) ∧
  decode .matchPair [0b00100000, 0b00000001] = .ok (.matchRef 2 1, []) ∧
  decodeTableWord 8 0b10000001 = some (.ctl 0x81) ∧
  decodeTableWord 16 0b1_01000001 = some (.lit 0x41) ∧
  decodeTableWord 24 0b0_0010_0000_00000001 = some (.matchRef 2 1) ∧
  decodeTableWord 24 0b0_1111_1010_11001100 = some (.matchRef 15 0xACC) ∧
  decode .matchPair [0x2F, 0xFE] = .ok (.matchRef 2 4094, [])

/-- R97: the fields of the pair as numbers; and `match_position` is an absolute slot index: where the check passes, the first byte
of the copy is the one in that slot. -/
def Obligations.MatchFieldsAreTheRules : Prop :=
  (∀ b0 b1 : Byte,
    (rawLengthOf b0).toNat = b0.toNat / 16 ∧
    (positionHighOf b0).toNat = b0.toNat % 16 ∧
    (matchPositionOf b0 b1).toNat = (b0.toNat % 16) * 256 + b1.toNat) ∧
  (∀ s : State, EngineInv s → s.phase = .mChk → backRefInvalid s.pos (matchPositionOf s.b0 s.b1) s.outCount = false →
    ∃ t, seqSteps 2 s = .next t ∧
      Memory.read .out t.out s.outCount = some (winSlot s (matchPositionOf s.b0 s.b1)))

/-- R74: a `MATCH pos=P, len=M` line within the notation's ranges assembles to `b0 = ((M - 1) << 4) | (P >> 8)`, `b1 = P & 0xFF`. -/
def Obligations.AssembledMatchBytes : Prop :=
  ∀ pos len : Nat, (AsmLine.matchAt pos len).inRange = true →
    ∃ l p, (AsmLine.matchAt pos len).token = some (.matchRef l p) ∧
      encode (.matchRef l p) = [BitVec.ofNat 8 (((len - 1) <<< 4) ||| (pos >>> 8)), BitVec.ofNat 8 pos]

/-- R60, R61, R74: in the CONTROL byte the assembler gives a group of tokens, bit `k` is 1 exactly when the `(k+1)`-th token is a
literal. -/
def Obligations.ControlByteMarksLiterals : Prop :=
  ∀ (group : List Instr) (k : Nat), group.length ≤ 8 → k < 8 →
    ((controlBits 0 group).getLsbD k = true ↔ ∃ c, group[k]? = some (.lit c))

/-! ### Operands of a MATCH -/

/-- R98: `match_length = raw_length + 1`, in 1..16, and one more is the nominal count, in 2..17; neither sum wraps. -/
def Obligations.MatchLengthNeverWraps : Prop :=
  Config.BREAK_EVEN = 1 ∧ ∀ l : BitVec 4,
    (matchLength l).toNat = l.toNat + 1 ∧ 1 ≤ (matchLength l).toNat ∧ (matchLength l).toNat ≤ 16 ∧
    (matchLength l + 1).toNat = l.toNat + 2

/-- R99: the distance and the verdict as the rule computes them, over all positions and counts; and, where
`pos = (1 + out_count) mod 4096`, which every decode keeps (R17), the rule's other form: the back-reference is valid exactly when
its slot has been written in this decode, `Written` being the function of R28. -/
def Obligations.BackReferenceValidity : Prop :=
  (∀ (pos p : Slot) (t : Nat),
    (distance pos p).toNat =
      (if (pos.toNat + 4096 - p.toNat) % 4096 = 0 then 4096 else (pos.toNat + 4096 - p.toNat) % 4096) ∧
    (backRefInvalid pos p t = true ↔ t < (distance pos p).toNat)) ∧
  (∀ (s : State) (p : Slot), s.pos.toNat = (1 + s.outCount) % 4096 →
    (backRefInvalid s.pos p s.outCount = false ↔ written s p = true) ∧
    (written s p = true ↔ 4096 ≤ s.outCount ∨ 1 ≤ p.toNat ∧ p.toNat ≤ s.outCount))

/-- R101, R102: with output still wanted, both branches of the clamp and their common value, the smaller of `match_length + 1` and
the budget. -/
def Obligations.CopyCountIsMinimum : Prop :=
  ∀ (l : BitVec 4) (n t : Nat), t < n →
    ((matchLength l).toNat < n - t → (copyCount l n t).toNat = (matchLength l).toNat + 1) ∧
    (n - t ≤ (matchLength l).toNat → (copyCount l n t).toNat = n - t) ∧
    (copyCount l n t).toNat = min ((matchLength l).toNat + 1) (n - t)

/-! ### What the instructions do -/

/-- R81: `CTL` with a byte left in the stream loads the control byte and sets the mask to 1; nothing else but the cursor changes. -/
def Obligations.ControlLoads : Prop :=
  ∀ (s : State) (f : Byte), s.inPos < s.inLen →
    exec (.ctl f) s = .next { s with control := f, mask := 1, inPos := s.inPos + 1 }

/-- R90: `LIT` with a byte left in the stream and output wanted emits the byte and writes it to the Window. -/
def Obligations.LiteralEmitsAndWrites : Prop :=
  ∀ (s : State) (c : Byte), s.inPos < s.inLen → s.outCount < s.targetLen →
    exec (.lit c) s = .next { s with
      inPos := s.inPos + 1
      out := Memory.write .out s.out s.outCount c
      outCount := s.outCount + 1
      win := Memory.write .win s.win s.pos.toNat c
      pos := s.pos + 1
      phase := .query }

/-- R90 by reads: after a `LIT` that completes, the byte is the output's next byte and stands in the slot at the old `pos`; every
other byte of the output and slot of the Window reads as before, and the counters moved by one. -/
def Obligations.LiteralReadsBack : Prop :=
  ∀ (s : State) (c : Byte), EngineInv s → s.inPos < s.inLen → s.outCount < s.targetLen →
    ∃ t, exec (.lit c) s = .next t ∧
      t.phase = .query ∧ t.inPos = s.inPos + 1 ∧ t.outCount = s.outCount + 1 ∧
      t.pos.toNat = (s.pos.toNat + 1) % 4096 ∧
      (∀ a : Nat, Memory.read .out t.out a = if a = s.outCount then some c else Memory.read .out s.out a) ∧
      (∀ slot : Slot, winSlot t slot = if slot = s.pos then c else winSlot s slot)

/-- R106: a `MATCH` whose pair is in the stream and whose back-reference is valid completes: the counters' effects, the latches,
and the phase. -/
def Obligations.MatchCompletes : Prop :=
  ∀ (s : State) (l : BitVec 4) (p : Slot),
    s.inPos + 2 ≤ s.inLen → s.outCount < s.targetLen → backRefInvalid s.pos p s.outCount = false →
    ∃ t, exec (.matchRef l p) s = .next t ∧
      t.phase = .query ∧ t.err = s.err ∧ t.cnt = 0 ∧
      t.inPos = s.inPos + 2 ∧
      t.outCount = s.outCount + (copyCount l s.targetLen s.outCount).toNat ∧
      t.pos.toNat = (s.pos.toNat + (copyCount l s.targetLen s.outCount).toNat) % 4096 ∧
      t.msrc.toNat = (p.toNat + (copyCount l s.targetLen s.outCount).toNat) % 4096 ∧
      encode (.matchRef l p) = [t.b0, t.b1]

/-- R104: of a `MATCH` that completes, byte `i` of the copy is the byte that stood, before the token, in the slot `i mod d` past
`match_position`, `d` being the distance: runs come out right, overlapping or not; and the same byte was written to the Window. -/
def Obligations.MatchRepeatsItsSource : Prop :=
  ∀ (s t : State) (l : BitVec 4) (p : Slot), EngineInv s →
    s.inPos + 2 ≤ s.inLen → s.outCount < s.targetLen → backRefInvalid s.pos p s.outCount = false →
    exec (.matchRef l p) s = .next t →
    ∀ i : Nat, i < (copyCount l s.targetLen s.outCount).toNat →
      Memory.read .out t.out (s.outCount + i) =
        some (winSlot s (p + BitVec.ofNat 12 (i % (distance s.pos p).toNat))) ∧
      winSlot t (s.pos + BitVec.ofNat 12 i) = winSlot s (p + BitVec.ofNat 12 (i % (distance s.pos p).toNat))

/-- R100, R131: a `MATCH` whose pair is in the stream and whose back-reference is invalid takes `InvalidBackReference`: the pair is
consumed and latched, nothing is emitted or written. -/
def Obligations.InvalidMatchTakesError : Prop :=
  ∀ (s : State) (l : BitVec 4) (p : Slot),
    s.inPos + 2 ≤ s.inLen → backRefInvalid s.pos p s.outCount = true →
    exec (.matchRef l p) s = .next { s with
      inPos := s.inPos + 2
      b0 := matchByte0 l p
      b1 := matchByte1 p
      err := some .invalidBackRef
      phase := .error }

/-- R41, R81, R90, R95: at the end of the stream each instruction takes `MalformedInput` and does nothing else. -/
def Obligations.StreamEndTakesMalformedInput : Prop :=
  ∀ (s : State) (i : Instr), s.inLen ≤ s.inPos →
    exec i s = .next { s with err := some .malformedInput, phase := .error }

/-- R96: a pair cut short between its bytes reports `MalformedInput`, valid or not: the first byte is consumed and latched. -/
def Obligations.CutPairTakesMalformedInput : Prop :=
  ∀ (s : State) (l : BitVec 4) (p : Slot), s.inPos + 1 = s.inLen →
    exec (.matchRef l p) s = .next { s with
      inPos := s.inPos + 1
      b0 := matchByte0 l p
      err := some .malformedInput
      phase := .error }

/-- The frame of the instructions: what each leaves unchanged whenever it gives a next state. Of `CTL` everything but `control`,
`mask`, the cursor and, in an error, `err` and `phase`; all of memory. -/
def Obligations.ControlFrame : Prop :=
  ∀ (s t : State) (f : Byte), exec (.ctl f) s = .next t →
    t.pos = s.pos ∧ t.b0 = s.b0 ∧ t.b1 = s.b1 ∧ t.msrc = s.msrc ∧ t.cnt = s.cnt ∧ t.inLen = s.inLen ∧
    t.outCount = s.outCount ∧ t.targetLen = s.targetLen ∧ t.targetLenReg = s.targetLenReg ∧ t.inLenReg = s.inLenReg ∧
    t.schedule = s.schedule ∧ t.freeCount = s.freeCount ∧
    (t.phase = s.phase ∧ t.err = s.err ∨ t.phase = .error ∧ t.err = some .malformedInput) ∧
    (∀ a : Nat, Memory.read .cs t.cs a = Memory.read .cs s.cs a) ∧
    (∀ a : Nat, Memory.read .win t.win a = Memory.read .win s.win a) ∧
    (∀ a : Nat, Memory.read .out t.out a = Memory.read .out s.out a)

/-- The frame of `LIT`: registers, the FlagCursor, and every byte of memory but the slot at the old `pos` and the output byte at the
old `out_count`; nothing of memory when it faults. -/
def Obligations.LiteralFrame : Prop :=
  ∀ (s t : State) (c : Byte), EngineInv s → exec (.lit c) s = .next t →
    t.control = s.control ∧ t.mask = s.mask ∧ t.b0 = s.b0 ∧ t.b1 = s.b1 ∧ t.msrc = s.msrc ∧ t.cnt = s.cnt ∧
    t.inLen = s.inLen ∧ t.targetLen = s.targetLen ∧ t.targetLenReg = s.targetLenReg ∧ t.inLenReg = s.inLenReg ∧
    t.schedule = s.schedule ∧ t.freeCount = s.freeCount ∧
    (t.phase = .query ∧ t.err = s.err ∨
      t.phase = .error ∧ t.err = some .malformedInput ∧ t.pos = s.pos ∧ t.outCount = s.outCount ∧ t.inPos = s.inPos ∧
      t.win = s.win ∧ t.out = s.out) ∧
    (∀ a : Nat, Memory.read .cs t.cs a = Memory.read .cs s.cs a) ∧
    (∀ a : Nat, a ≠ s.pos.toNat → Memory.read .win t.win a = Memory.read .win s.win a) ∧
    (∀ a : Nat, a ≠ s.outCount → Memory.read .out t.out a = Memory.read .out s.out a)

/-- The frame of `MATCH`, with output wanted as it is in its phase: registers, the FlagCursor, and every byte of memory but the
`copy_count` slots from the old `pos` on and the `copy_count` output bytes from the old `out_count` on; nothing of memory, `pos` and
`out_count` when it faults. -/
def Obligations.MatchFrame : Prop :=
  ∀ (s t : State) (l : BitVec 4) (p : Slot), EngineInv s → s.outCount < s.targetLen → exec (.matchRef l p) s = .next t →
    t.control = s.control ∧ t.mask = s.mask ∧ t.inLen = s.inLen ∧ t.targetLen = s.targetLen ∧
    t.targetLenReg = s.targetLenReg ∧ t.inLenReg = s.inLenReg ∧ t.schedule = s.schedule ∧ t.freeCount = s.freeCount ∧
    (t.phase = .query ∧ t.err = s.err ∨
      t.phase = .error ∧ t.err ≠ none ∧ t.pos = s.pos ∧ t.outCount = s.outCount ∧ t.msrc = s.msrc ∧ t.cnt = s.cnt ∧
      t.win = s.win ∧ t.out = s.out) ∧
    (∀ a : Nat, Memory.read .cs t.cs a = Memory.read .cs s.cs a) ∧
    (∀ a : Nat, (∀ i : Nat, i < (copyCount l s.targetLen s.outCount).toNat → a ≠ (s.pos.toNat + i) % 4096) →
      Memory.read .win t.win a = Memory.read .win s.win a) ∧
    (∀ a : Nat, (∀ i : Nat, i < (copyCount l s.targetLen s.outCount).toNat → a ≠ s.outCount + i) →
      Memory.read .out t.out a = Memory.read .out s.out a)

/-! ### The named operations -/

/-- R43: after `WinWrite(c)` the slot at the old `pos` holds `c`, every other slot holds what it held, and `pos` moved by one
modulo 4096; no other space is touched (R40). -/
def Obligations.WinWriteWritesOneSlot : Prop :=
  ∀ (s : State) (c : Byte), EngineInv s →
    (∀ slot : Slot, winSlot (winWrite c s) slot = if slot = s.pos then c else winSlot s slot) ∧
    (winWrite c s).pos.toNat = (s.pos.toNat + 1) % 4096 ∧
    (winWrite c s).out = s.out ∧ (winWrite c s).cs = s.cs ∧ (winWrite c s).outCount = s.outCount

/-- R45: `WinRead(d)` is the byte of slot `(pos - d) mod 4096`, the two read forms are the same access, and in a decode it is the
byte written `d` writes ago where there were that many, distance 0 standing for 4096. -/
def Obligations.WinReadIsWinSlot : Prop :=
  (∀ (s : State) (d : Slot), winRead s d = winSlot s (BitVec.ofNat 12 ((s.pos.toNat + 4096 - d.toNat) % 4096))) ∧
  (∀ (s : State) (slot : Slot), winSlot s slot = winRead s (BitVec.ofNat 12 ((s.pos.toNat + 4096 - slot.toNat) % 4096))) ∧
  (∀ (s : State) (d : Nat), EngineInv s → WindowInv s → s.phase ≠ .idle → 1 ≤ d → d ≤ 4096 → d ≤ s.outCount →
    Memory.read .out s.out (s.outCount - d) = some (winRead s (BitVec.ofNat 12 d)))

/-- R105: a copy step that leaves the copy going keeps the distance and its validity: one test covers the whole match. -/
def Obligations.CopyKeepsDistance : Prop :=
  ∀ s : State, s.outCount < s.targetLen → backRefInvalid s.pos s.msrc s.outCount = false →
    distance (copyStep s).pos (copyStep s).msrc = distance s.pos s.msrc ∧
    backRefInvalid (copyStep s).pos (copyStep s).msrc (copyStep s).outCount = false

/-- R108: at distance 4096, `msrc = pos` in COPY, which is valid only from 4096 bytes on: a copy step changes no slot of the Window,
moves `pos`, keeps `msrc = pos`, and emits the slot's byte, which is the output byte 4096 positions back. -/
def Obligations.CopyAtFullDistanceKeepsWindow : Prop :=
  ∀ s : State, EngineInv s → WindowInv s → s.phase = .copy → s.msrc = s.pos →
    4096 ≤ s.outCount ∧
    (∀ slot : Slot, winSlot (copyStep s) slot = winSlot s slot) ∧
    (copyStep s).pos.toNat = (s.pos.toNat + 1) % 4096 ∧ (copyStep s).msrc = (copyStep s).pos ∧
    Memory.read .out (copyStep s).out s.outCount = some (winSlot s s.pos) ∧
    Memory.read .out (copyStep s).out s.outCount = Memory.read .out s.out (s.outCount - 4096)

/-! ### The sequencer -/

/-- A step runs the decoded instruction: with no other move due, where an instruction begins and its bytes are at the cursor, the
step is its execution, and nothing is added around it. That one step at an empty schedule is a whole token, and that the bytes reach
`exec` decoded, is the model's grain (log 5, log 6, log 14, DESIGN CHOICE; D1 and U20 leave it to the modeller). -/
def Obligations.StepRunsDecodedInstruction : Prop :=
  ∀ (s : State) (r : Role) (i : Instr) (rest : List Byte), s.schedule = [] → fetchRole s = some r →
    decode r (streamBytes s 2 s.inPos) = .ok (i, rest) → step s = exec i s

/-- R111: with moves due the agents move in the schedule's order, one at a time; with none due and `phase` outside RUN nothing moves
and the machine stops by name (the model's own schedule, log 5, log 7). -/
def Obligations.ScheduleOrdersMoves : Prop :=
  (∀ (s : State) (rest : List Move), s.schedule = .sequencer :: rest → step s = seqStep { s with schedule := rest }) ∧
  (∀ (s : State) (a : HostAction) (rest : List Move), s.schedule = .host a :: rest →
    step s = hostStep a { s with schedule := rest }) ∧
  (∀ s : State, s.schedule = [] → s.phase.inRun = false → step s = .fault .noStep)

/-- R60: the role of the next byte is decided by the state alone: a CONTROL byte when a flag bit is needed and `mask = 256`, a
literal after a flag of 1, a pair after a flag of 0, and none elsewhere. -/
def Obligations.RoleIsDecidedByState : Prop :=
  ∀ s : State,
    (fetchRole s = some .control ↔ s.phase = .query ∧ s.outCount ≠ s.targetLen ∧ s.mask = 256) ∧
    (fetchRole s = some .literal ↔ s.phase = .lit) ∧
    (fetchRole s = some .matchPair ↔ s.phase = .mB0)

/-- The model's own loader (log 12): a table word placed in any state is what the very next step runs. -/
def Obligations.PlacedWordRunsNext : Prop :=
  ∀ (s : State) (nbits w : Nat) (i : Instr), Memory.wf .cs s.cs = true → decodeTableWord nbits w = some i →
    step (s.withFetchWord nbits w) = exec i (s.withFetchWord nbits w)

/-- R80, R82: with output wanted and the mask on bit `k` of the control byte, a QUERY step reads nothing, tests that bit, moves the
mask on by one bit (to 256 after bit 7), and goes to LIT for 1 and to M_B0 for 0. -/
def Obligations.FlagQueryTestsLowBitFirst : Prop :=
  ∀ (s : State) (k : Nat), k < 8 → s.phase = .query → s.outCount ≠ s.targetLen → s.mask.toNat = 2 ^ k →
    ∃ t, seqStep s = .next t ∧ t.mask.toNat = 2 ^ (k + 1) ∧
      t.phase = (if s.control.getLsbD k then .lit else .mB0) ∧
      t = { s with mask := t.mask, phase := t.phase }

/-- R112, R113: the loop head. The completion test comes first, whatever the mask and the stream: then nothing but `phase`
changes. Otherwise `CTL` exactly when `mask = 256`, and `FLAG` otherwise. -/
def Obligations.QueryTestsCompletionFirst : Prop :=
  ∀ s : State, s.phase = .query →
    (s.outCount = s.targetLen → seqStep s = .next { s with phase := .done }) ∧
    (s.outCount ≠ s.targetLen → s.mask = 256 → seqStep s = streamRead loadControl s) ∧
    (s.outCount ≠ s.targetLen → s.mask ≠ 256 → seqStep s = .next (flagStep s))

/-- R115: the transitions of `phase` out of RUN's phases, complete: where a sequencer step answers a next state, its phase is the
one of the table's row, by the row's condition. -/
def Obligations.PhaseTransitions : Prop :=
  ∀ s t : State, EngineInv s → seqStep s = .next t →
    (s.phase = .query ∧ t.phase =
      (if s.outCount = s.targetLen then .done
       else if s.mask = 256 then (if s.inPos < s.inLen then .query else .error)
       else if s.control &&& s.mask.setWidth 8 ≠ 0 then .lit else .mB0)) ∨
    (s.phase = .lit ∧ t.phase = (if s.inPos < s.inLen then .query else .error)) ∨
    (s.phase = .mB0 ∧ t.phase = (if s.inPos < s.inLen then .mB1 else .error)) ∨
    (s.phase = .mB1 ∧ t.phase = (if s.inPos < s.inLen then .mChk else .error)) ∨
    (s.phase = .mChk ∧
      t.phase = (if (distance s.pos (matchPositionOf s.b0 s.b1)).toNat ≤ s.outCount then .copy else .error)) ∨
    (s.phase = .copy ∧ t.phase = (if 1 < s.cnt.toNat then .copy else .query))

/-- R111, R115: the sequencer is never stuck in RUN where the host placed the stream, and has no step elsewhere. -/
def Obligations.SequencerStepsExactlyInRun : Prop :=
  ∀ s : State, StreamPlaced s s.inLen →
    (s.phase.inRun = true → ∃ t, seqStep s = .next t) ∧
    (s.phase.inRun = false → seqStep s = .fault .noStep)

/-- R131: the only thing a step that enters ERROR does is to write `err` and `phase`, and the sequencer has no further step. -/
def Obligations.ErrorEntryWritesErrAndPhase : Prop :=
  ∀ s t : State, seqStep s = .next t → t.phase = .error →
    (∃ k : EngineError, t = { s with err := some k, phase := .error }) ∧ seqStep t = .fault .noStep

/-- R126, R127: the places of the two errors. A step takes `MalformedInput` only in QUERY, LIT, M_B0 and M_B1, at
`in_pos = in_len`, with output still wanted; `InvalidBackReference` only in M_CHK, when `d > out_count`. -/
def Obligations.ErrorsAriseOnlyAtTheirPlaces : Prop :=
  ∀ s t : State, EngineInv s → seqStep s = .next t →
    (t.err = some .malformedInput →
      s.phase ∈ [Phase.query, .lit, .mB0, .mB1] ∧ s.inPos = s.inLen ∧ t.inPos = s.inLen ∧ s.outCount < s.targetLen ∧
        (s.phase = .query → s.mask = 256)) ∧
    (t.err = some .invalidBackRef →
      s.phase = .mChk ∧ s.outCount < (distance s.pos (matchPositionOf s.b0 s.b1)).toNat)

/-- R21: a sequencer step moves the stream cursor by at most one, never back, and never beyond `in_len`. -/
def Obligations.CursorOnlyAdvances : Prop :=
  ∀ s t : State, EngineInv s → seqStep s = .next t →
    (t.inPos = s.inPos ∨ t.inPos = s.inPos + 1) ∧ t.inPos ≤ s.inLen

/-- R42, R55, R22, R24: no step of the engine running alone changes the stream, its length, the target length, or the host's
staging registers. -/
def Obligations.EngineNeverWritesStream : Prop :=
  ∀ s t : State, s.schedule = [] → step s = .next t →
    t.cs = s.cs ∧ t.inLen = s.inLen ∧ t.targetLen = s.targetLen ∧ t.targetLenReg = s.targetLenReg ∧ t.inLenReg = s.inLenReg

/-- R134, and the same of IDLE and DONE (R115 "No other transition exists", R124): a phase outside RUN is left only by the host: by
START, which clears `err` and begins a decode, or by hard reset. -/
def Obligations.PhasesOutsideRunAreLeftOnlyByHost : Prop :=
  ∀ s t : State, s.phase ∈ [Phase.idle, .done, .error] → step s = .next t → t.phase ≠ s.phase →
    ∃ rest,
      (∃ v, s.schedule = .host (.writeReg 0 v) :: rest ∧ v.testBit 0 = true ∧ t.phase = .query ∧ t.err = none ∧
        t.inPos = 0 ∧ t.outCount = 0) ∨
      (s.schedule = .host .hardReset :: rest ∧ t.phase = .idle ∧ t.err = none)

/-! ### Host commands and registers -/

/-- R110, R146: a write of 1 to CTRL.START outside RUN sets the complete decode state from the staging registers; nothing of the
output has a value; and nothing survives of what ran before: two states with the same operands and stream begin the same decode.
In RUN the command is ignored. -/
def Obligations.StartInitialisesDecode : Prop :=
  (∀ (s : State) (v : Nat), v.testBit 0 = true → s.phase ∈ [Phase.idle, .done, .error] →
    ∃ t, hostStep (.writeReg 0 v) s = .next t ∧
      t.inLen = s.inLenReg ∧ t.targetLen = s.targetLenReg ∧ t.err = none ∧ t.mask = 256 ∧ t.pos = 1 ∧ t.inPos = 0 ∧
      t.outCount = 0 ∧ t.phase = .query ∧ t.cs = s.cs ∧
      (∀ slot : Slot, winSlot t slot = 0x00) ∧ (∀ a : Nat, Memory.read .out t.out a = none) ∧
      (∀ u x : State, u.phase ∈ [Phase.idle, .done, .error] → u.inLenReg = s.inLenReg → u.targetLenReg = s.targetLenReg →
        u.cs = s.cs → hostStep (.writeReg 0 v) u = .next x → SameDecode t x)) ∧
  (∀ (s : State) (v : Nat), s.phase ∈ [Phase.query, .lit, .mB0, .mB1, .mChk, .copy] →
    hostStep (.writeReg 0 v) s = .next s)

/-- R122: a write of 1 to CTRL.START while `phase` is in RUN has no effect, and of all the host can do then only hard reset stops
the decode: nothing else changes the phase. -/
def Obligations.StartInRunIsIgnored : Prop :=
  ∀ (s : State), s.phase ∈ [Phase.query, .lit, .mB0, .mB1, .mChk, .copy] →
    (∀ v : Nat, hostStep (.writeReg 0 v) s = .next s) ∧
    (∃ t, hostStep .hardReset s = .next t ∧ t.phase = .idle) ∧
    (∀ (a : HostAction) (t : State), hostStep a s = .next t → t.phase ≠ s.phase → a = .hardReset)

/-- R33: the host register file: what a write of each register does and what a read of each gives. Bit 0 of CTRL issues START with
the staging registers as operands, the bits above are ignored; a staging write, accepted in every phase, keeps the bits of its
register's width and changes that register alone; bits above a register's content read 0. OUT_COUNT and IN_COUNT can be read in every
phase; in RUN, where R35 gives no guarantee, CountersInRunShowSomeMoment says what they can show. All of it whatever moment `k` a read
shows. -/
def Obligations.HostRegisterFile : Prop :=
  ∀ (s : State) (v k : Nat),
    hostRead k 0 s = .ok 0 ∧ hostRead k 1 s = .ok (statusWord s) ∧ (∃ w, hostRead k 4 s = .ok w) ∧ (∃ w, hostRead k 5 s = .ok w) ∧
    (s.phase.inRun = false → hostRead k 4 s = .ok s.outCount ∧ hostRead k 5 s = .ok s.inPos) ∧
    (v.testBit 0 = true → s.phase.inRun = false →
      hostStep (.writeReg 0 v) s = .next (start s.inLenReg s.targetLenReg s) ∧
      (start s.inLenReg s.targetLenReg s).inLen = s.inLenReg ∧
      (start s.inLenReg s.targetLenReg s).targetLen = s.targetLenReg) ∧
    (v.testBit 0 = false → hostStep (.writeReg 0 v) s = .next s) ∧
    (∃ t, hostStep (.writeReg 2 v) s = .next t ∧ hostRead k 2 t = .ok (v % 2 ^ s.params.lenw) ∧
      t = { s with targetLenReg := t.targetLenReg }) ∧
    (∃ t, hostStep (.writeReg 3 v) s = .next t ∧ hostRead k 3 t = .ok (v % 2 ^ s.params.inw) ∧
      t = { s with inLenReg := t.inLenReg }) ∧
    hostStep (.writeReg 1 v) s = .next s ∧ hostStep (.writeReg 4 v) s = .next s ∧ hostStep (.writeReg 5 v) s = .next s ∧
    (EngineInv s → WidthInv s → ∀ (n w : Nat), hostRead k n s = .ok w → w < 2 ^ s.params.hostw) ∧
    hostRead k 1 (hardReset s) = .ok 0 ∧ hostRead k 4 (hardReset s) = .ok 0 ∧ hostRead k 5 (hardReset s) = .ok 0

/-- R35: in RUN, OUT_COUNT and IN_COUNT read the counters of some reachable intermediate state of the decode, and of which one is
free: every read shows such a state, a state that START with the running decode's operands comes to in RUN; every such state can be
shown; the current state is among them; and what is shown never passes the lengths. The steps are those of R115 (log 10). -/
def Obligations.CountersInRunShowSomeMoment : Prop :=
  ∀ s : State, s.phase.inRun = true →
    (∀ k : Nat, ∃ (j : Nat) (t : State), seqSteps j (start s.inLen s.targetLen s) = .next t ∧ t.phase.inRun = true ∧
      hostRead k 4 s = .ok t.outCount ∧ hostRead k 5 s = .ok t.inPos) ∧
    (∀ (j : Nat) (t : State), seqSteps j (start s.inLen s.targetLen s) = .next t → t.phase.inRun = true →
      hostRead j 4 s = .ok t.outCount ∧ hostRead j 5 s = .ok t.inPos) ∧
    (∀ (u : State) (l n j : Nat), seqSteps j (start l n u) = .next s →
      hostRead j 4 s = .ok s.outCount ∧ hostRead j 5 s = .ok s.inPos) ∧
    (EngineInv s → ∀ k : Nat, ∃ v w : Nat, hostRead k 4 s = .ok v ∧ v ≤ s.targetLen ∧ hostRead k 5 s = .ok w ∧ w ≤ s.inLen)

/-- R34, R129: STATUS as a number: STATE in bits 1:0, ERR in bits 3:2, the rest 0; in an invariant state ERR is not 0 exactly when
STATE is 3, and code 3 is never produced; after hard reset both are 0. The output lines beside it: `done` is 1 exactly in DONE and
`error` exactly in ERROR (R32, R137). -/
def Obligations.StatusFields : Prop :=
  (∀ (s : State) (k : Nat), hostRead k 1 (hardReset s) = .ok 0) ∧
  (∀ s : State, (doneLine s = true ↔ s.phase = .done) ∧ (errorLine s = true ↔ s.phase = .error)) ∧
  ∀ (s : State) (k : Nat), EngineInv s → ∃ w, hostRead k 1 s = .ok w ∧ w < 16 ∧
    (w % 4 = 0 ↔ s.phase = .idle) ∧
    (w % 4 = 1 ↔ s.phase ∈ [Phase.query, .lit, .mB0, .mB1, .mChk, .copy]) ∧
    (w % 4 = 2 ↔ s.phase = .done) ∧
    (w % 4 = 3 ↔ s.phase = .error) ∧
    (w / 4 = 0 ↔ s.err = none) ∧
    (w / 4 = 1 ↔ s.err = some .malformedInput) ∧
    (w / 4 = 2 ↔ s.err = some .invalidBackRef) ∧
    (w / 4 ≠ 0 ↔ w % 4 = 3)

/-- R145: hard reset, from any state: the values the rule states, what the host then reads, `CS` untouched, no result, and no step
of the sequencer. -/
def Obligations.HardResetValues : Prop :=
  ∀ s : State, ∃ t, hostStep .hardReset s = .next t ∧
    t.phase = .idle ∧ t.err = none ∧ t.inPos = 0 ∧ t.outCount = 0 ∧ t.cs = s.cs ∧
    (∀ k : Nat, hostRead k 1 t = .ok 0 ∧ hostRead k 4 t = .ok 0 ∧ hostRead k 5 t = .ok 0) ∧ doneLine t = false ∧ errorLine t = false ∧
    decodeResult t = none ∧ (∀ a : Nat, hostReadOut a t = none) ∧ seqStep t = .fault .noStep

/-- U16, U17, R35, R26: what the model stops on by name (log 8, log 9): a host write of `CS` in RUN, or at an address of more than
`INW` bits, and a register number above 5; and a write of `CS` that it does not stop on writes that byte and nothing else. -/
def Obligations.HostAccessesOutsideModelRefused : Prop :=
  (∀ (s : State) (a : Nat) (b : Byte), s.phase.inRun = true →
    hostStep (.writeStream a b) s = .refused .streamWrittenInRun) ∧
  (∀ (s : State) (a : Nat) (b : Byte), s.phase.inRun = false → 2 ^ s.params.inw ≤ a →
    hostStep (.writeStream a b) s = .refused .noSuchStreamAddress) ∧
  (∀ (s : State) (a : Nat) (b : Byte), s.phase.inRun = false → a < 2 ^ s.params.inw →
    hostStep (.writeStream a b) s = .next { s with cs := Memory.write .cs s.cs a b }) ∧
  (∀ (s : State) (n v k : Nat), 5 < n →
    hostStep (.writeReg n v) s = .refused .noSuchHostRegister ∧ hostRead k n s = .error .noSuchHostRegister)

/-- R58, R132: the host sees no byte of `OUT` outside DONE, and no result byte outside the target length. -/
def Obligations.OutputHiddenOutsideDone : Prop :=
  ∀ (s : State) (a : Nat),
    (s.phase ≠ .done → hostReadOut a s = none) ∧ (s.targetLen ≤ a → hostReadOut a s = none) ∧
    (s.phase = .error → decodeResult s = s.err.map DecodeResult.err)

/-! ### Invariants -/

/-- The values R145 states for reset, and that the invariants hold there, for every choice of the widths (R5), the defaults of
State.reset among them. -/
def Obligations.ResetMeetsInvariants : Prop :=
  State.reset = State.resetAt { lenw := 32, inw := 32 } ∧
  ∀ p : Config.Params,
    (State.resetAt p).params = p ∧ (State.resetAt p).phase = .idle ∧ (State.resetAt p).err = none ∧
    (State.resetAt p).inPos = 0 ∧ (State.resetAt p).outCount = 0 ∧
    EngineInv (State.resetAt p) ∧ WindowInv (State.resetAt p) ∧ WidthInv (State.resetAt p)

/-- R11, R13, R17, R21, R23, R25, R105: every step of the machine, of the engine or the host, keeps the invariants. -/
def Obligations.EngineInvariantKept : Prop :=
  ∀ s t : State, EngineInv s → step s = .next t → EngineInv t

/-- R5, R21 to R24, R33: whatever the widths, every step keeps them, and no counter, length or staging register outgrows its own:
nothing wraps, so that the width is not observable below its limit (D5). -/
def Obligations.RegistersKeepTheirWidths : Prop :=
  ∀ s t : State, EngineInv s → WidthInv s → step s = .next t → WidthInv t ∧ t.params = s.params

/-- R17: every step keeps the Window a mirror of the last 4096 bytes of the output, and the output listed exactly below
`out_count`. -/
def Obligations.WindowMirrorsOutput : Prop :=
  ∀ s t : State, EngineInv s → WindowInv s → step s = .next t → WindowInv t

/-- R156: where the bytes of the output come from. As long as the engine runs alone, every byte of the output equals a byte of the
stream below the cursor; and every byte that a decode has produced `j` steps after its START is the byte of `CS` that an earlier LIT
step of the same decode had at its cursor: no zero of the initial Window reaches the output unless a literal brought it. -/
def Obligations.OutputComesFromStream : Prop :=
  (∀ s t : State, EngineInv s → WindowInv s → OutFromStream s → s.schedule = [] → step s = .next t → OutFromStream t) ∧
  (∀ (s t : State) (l n j : Nat), EngineInv s → seqSteps j (start l n s) = .next t →
    ∀ (a : Nat) (b : Byte), Memory.read .out t.out a = some b →
      ∃ (i : Nat) (u : State), i < j ∧ seqSteps i (start l n s) = .next u ∧ u.phase = .lit ∧ u.inPos < l ∧
        Memory.read .cs s.cs u.inPos = some b)

/-- R156: the fill of the Window at START cannot be observed. Two states that differ only in slots not written in this decode take
the same step of the engine alone, to states that differ only so again, or stop alike: the output and everything else are the same.
Right after START no slot is written, so that any fill at all may stand in the Window. -/
def Obligations.UnwrittenSlotsNeverReachOutput : Prop :=
  (∀ s t : State, EngineInv s → EngineInv t → s.schedule = [] → SameWrittenSlots s t →
    match step s, step t with
    | .next x, .next y => SameWrittenSlots x y ∧ x.out = y.out
    | .fault a, .fault b => a = b
    | .refused a, .refused b => a = b
    | _, _ => False) ∧
  (∀ (s : State) (l n : Nat) (fill : Memory), SameWrittenSlots (start l n s) { start l n s with win := fill })

/-- R116, R121: in DONE the result is exactly `target_len` bytes, the ones the host reads. -/
def Obligations.ResultHasExactLength : Prop :=
  ∀ s : State, EngineInv s → WindowInv s → s.phase = .done →
    ∃ bytes : List Byte, decodeResult s = some (.ok bytes) ∧ bytes.length = s.targetLen ∧
      ∀ a : Nat, a < s.targetLen → hostReadOut a s = bytes[a]?

/-! ### Whole decodes -/

/-- R118: with `target_len = 0` the first step after START ends the decode, whatever the stream and its length, reading nothing. -/
def Obligations.ZeroLengthIsNoOp : Prop :=
  ∀ (s : State) (l : Nat), s.schedule = [] →
    ∃ t, step (start l 0 s) = .next t ∧ t.phase = .done ∧ decodeResult t = some (.ok []) ∧
      t.inPos = 0 ∧ t.outCount = 0 ∧ t.mask = 256 ∧ t.pos = 1 ∧ t.err = none

/-- R106, R115, U20: the grains agree. A step of the engine alone is one step of the phase machine, or, for a `MATCH` whose pair
is in the stream, three and then one per byte copied (three when the back-reference is invalid). -/
def Obligations.TokenStepIsPhaseSteps : Prop :=
  ∀ s : State, s.schedule = [] →
    (∀ (l : BitVec 4) (p : Slot), fetch s = some (.matchRef l p) →
      step s = seqSteps (if backRefInvalid s.pos p s.outCount then 3
        else 3 + (copyCount l s.targetLen s.outCount).toNat) s) ∧
    ((∀ (l : BitVec 4) (p : Slot), fetch s ≠ some (.matchRef l p)) → step s = seqSteps 1 s)

/-- R117, R146: the whole decode is a function of the request alone. Two states that agree on what a decode can still read take the
same step, to states that agree again, or stop alike; and START with the same operands over the same bytes below `in_len` makes
any two states agree, whatever ran before and whatever the widths of the two engines (R5). -/
def Obligations.DecodeDependsOnRequestOnly : Prop :=
  (∀ s t : State, s.schedule = [] → t.schedule = [] → SameDecode s t → SameOutcome (step s) (step t)) ∧
  (∀ (s t : State) (l : Nat) (n : Nat),
    (∀ a : Nat, a < l → Memory.read .cs s.cs a = Memory.read .cs t.cs a) → SameDecode (start l n s) (start l n t))

/-- R119: a decode over a stream the host placed ends in DONE or ERROR after at most `5 N + ceil(N / 8) + 1` steps of the phase
machine, in strictly fewer when it faults. -/
def Obligations.DecodeEndsWithinBound : Prop :=
  ∀ (s : State) (l : Nat) (n : Nat), EngineInv s → StreamPlaced s l →
    ∃ (k : Nat) (t : State), seqSteps k (start l n s) = .next t ∧
      (t.phase = .done ∧ k ≤ 5 * n + (n + 7) / 8 + 1 ∨
        t.phase = .error ∧ k < 5 * n + (n + 7) / 8 + 1)

/-- R114: the machine computes the reference function. From START over a placed stream, in any earlier state, the machine running
alone ends in DONE with the function's output when it returns Ok, and in ERROR with its error when it returns that; in both the final
`in_pos`, `pos`, `mask` and, where a CONTROL byte was read, `control` agree too, and so does the number of bytes produced. -/
def Obligations.MachineComputesReference : Prop :=
  ∀ (s : State) (bytes : List Byte) (l : Nat) (n : Nat),
    EngineInv s → s.schedule = [] → bytes.length = l → StreamIs s bytes →
    ∃ (k : Nat) (t : State), runSteps k (start l n s) = .next t ∧
      match refDecode bytes n with
      | .ok v => t.phase = .done ∧ decodeResult t = some (.ok v.out) ∧ t.inPos = v.inPos ∧ t.outCount = v.out.length ∧
          t.pos.toNat = v.pos ∧ t.mask.toNat = v.mask ∧ (0 < n → t.control.toNat = v.control)
      | .error e => t.phase = .error ∧ decodeResult t = some (.err e.kind) ∧ t.inPos = e.final.inPos ∧
          t.outCount = e.final.out.length ∧ t.pos.toNat = e.final.pos ∧ t.mask.toNat = e.final.mask ∧
          (0 < e.final.inPos → t.control.toNat = e.final.control)

/-- R92: a stream whose every CONTROL byte is `0xFF`, each before up to eight literals: its length, and that its decode gives the
literals in order, consuming all of it. The same of a literal-only stream as R74 packs it, whose short last group has 0 in its unused
bits; and the two are the same stream where the last group is full. -/
def Obligations.LiteralOnlyStreamsRoundTrip : Prop :=
  ∀ bytes : List Byte,
    ((literalStream 0 bytes).length = bytes.length + (bytes.length + 7) / 8 ∧
      ∃ v, refDecode (literalStream 0 bytes) bytes.length = .ok v ∧
        v.out = bytes ∧ v.inPos = bytes.length + (bytes.length + 7) / 8) ∧
    ((packTokens [] (bytes.map Instr.lit)).length = bytes.length + (bytes.length + 7) / 8 ∧
      ∃ v, refDecode (packTokens [] (bytes.map Instr.lit)) bytes.length = .ok v ∧
        v.out = bytes ∧ v.inPos = bytes.length + (bytes.length + 7) / 8) ∧
    (bytes.length % 8 = 0 → literalStream 0 bytes = packTokens [] (bytes.map Instr.lit))

/-- R70: bytes after the last one consumed are ignored: where a stream's decode is Ok, it is the same with anything in place of
the bytes of the stream that it did not read, nothing at all included, and with anything after the stream. -/
def Obligations.TrailingBytesIgnored : Prop :=
  ∀ (bytes trailing : List Byte) (n : Nat) (v : DecodeVars),
    refDecode bytes n = .ok v →
      v.inPos ≤ bytes.length ∧ refDecode (bytes.take v.inPos) n = .ok v ∧
      refDecode (bytes.take v.inPos ++ trailing) n = .ok v ∧ refDecode (bytes ++ trailing) n = .ok v

/-- R120: a successful decode of `N >= 1` bytes reads at least 2 bytes of the stream and at most `N + 1 + ceil(N / 8)`. -/
def Obligations.ConsumptionBounds : Prop :=
  ∀ (bytes : List Byte) (n : Nat) (v : DecodeVars), 1 ≤ n → refDecode bytes n = .ok v →
    2 ≤ v.inPos ∧ v.inPos ≤ n + 1 + (n + 7) / 8 ∧ v.inPos ≤ bytes.length
end

