-- ==== Sys2Proof/Laws/Memory.lean ====
section
/-! SUPPORT. The laws of a memory: reading after a write, and that every operation keeps the canonical form. -/

namespace Sys2Proof.Machine

theorem Memory.find_of_lt {m : Memory} {lo a : Nat} (h : Memory.risesFrom lo m = true) (ha : a < lo) :
    Memory.find m a = none := by
  induction m generalizing lo with
  | nil => rfl
  | cons c m ih =>
    obtain ⟨k, v⟩ := c
    simp only [Memory.risesFrom, Bool.and_eq_true, decide_eq_true_eq] at h
    simp only [Memory.find]
    rw [if_neg (by omega), ih h.2 (by omega)]

theorem Memory.risesFrom_mono {m : Memory} {lo lo' : Nat} (h : Memory.risesFrom lo m = true) (hl : lo' ≤ lo) :
    Memory.risesFrom lo' m = true := by
  cases m with
  | nil => rfl
  | cons c m =>
    obtain ⟨k, v⟩ := c
    simp only [Memory.risesFrom, Bool.and_eq_true, decide_eq_true_eq] at h ⊢
    exact ⟨by omega, h.2⟩

theorem Memory.find_insert (m : Memory) (a : Nat) (b : Byte) (x : Nat) :
    Memory.find (Memory.insert m a b) x = if x = a then some b else Memory.find m x := by
  induction m with
  | nil => simp [Memory.insert, Memory.find, eq_comm]
  | cons c m ih =>
    obtain ⟨k, v⟩ := c
    simp only [Memory.insert]
    split
    · simp [Memory.find, eq_comm]
    · split
      · subst k
        simp only [Memory.find, eq_comm]
        split <;> rfl
      · simp only [Memory.find, ih]
        split
        · rw [if_neg (by omega)]
        · rfl

theorem Memory.find_erase {m : Memory} {lo : Nat} (h : Memory.risesFrom lo m = true) (a x : Nat) :
    Memory.find (Memory.erase m a) x = if x = a then none else Memory.find m x := by
  induction m generalizing lo with
  | nil => simp [Memory.erase, Memory.find]
  | cons c m ih =>
    obtain ⟨k, v⟩ := c
    simp only [Memory.risesFrom, Bool.and_eq_true, decide_eq_true_eq] at h
    simp only [Memory.erase]
    split
    · subst k
      split
      · subst x
        exact Memory.find_of_lt h.2 (by omega)
      · simp only [Memory.find]
        rw [if_neg (by omega)]
    · simp only [Memory.find, ih h.2]
      split
      · rw [if_neg (by omega)]
      · rfl

theorem Memory.risesFrom_insert {m : Memory} {lo a : Nat} (h : Memory.risesFrom lo m = true) (ha : lo ≤ a) (b : Byte) :
    Memory.risesFrom lo (Memory.insert m a b) = true := by
  induction m generalizing lo with
  | nil => simp [Memory.insert, Memory.risesFrom, ha]
  | cons c m ih =>
    obtain ⟨k, v⟩ := c
    simp only [Memory.risesFrom, Bool.and_eq_true, decide_eq_true_eq] at h
    simp only [Memory.insert]
    split
    · simp only [Memory.risesFrom, Bool.and_eq_true, decide_eq_true_eq]
      exact ⟨ha, by omega, h.2⟩
    · split
      · subst k
        simp only [Memory.risesFrom, Bool.and_eq_true, decide_eq_true_eq]
        exact ⟨ha, h.2⟩
      · simp only [Memory.risesFrom, Bool.and_eq_true, decide_eq_true_eq]
        exact ⟨h.1, ih h.2 (by omega)⟩

theorem Memory.risesFrom_erase {m : Memory} {lo : Nat} (h : Memory.risesFrom lo m = true) (a : Nat) :
    Memory.risesFrom lo (Memory.erase m a) = true := by
  induction m generalizing lo with
  | nil => rfl
  | cons c m ih =>
    obtain ⟨k, v⟩ := c
    simp only [Memory.risesFrom, Bool.and_eq_true, decide_eq_true_eq] at h
    simp only [Memory.erase]
    split
    · exact Memory.risesFrom_mono h.2 (by omega)
    · simp only [Memory.risesFrom, Bool.and_eq_true, decide_eq_true_eq]
      exact ⟨h.1, ih h.2⟩

theorem Memory.mem_insert {m : Memory} {a : Nat} {b : Byte} {c : Host.Cell} (h : c ∈ Memory.insert m a b) :
    c = (a, b) ∨ c ∈ m := by
  induction m with
  | nil => simpa [Memory.insert] using h
  | cons d m ih =>
    obtain ⟨k, v⟩ := d
    simp only [Memory.insert] at h
    split at h
    · simpa using h
    · split at h
      · rcases List.mem_cons.1 h with h | h
        · exact .inl h
        · exact .inr (List.mem_cons_of_mem _ h)
      · rcases List.mem_cons.1 h with h | h
        · exact .inr (h ▸ List.mem_cons_self)
        · exact (ih h).imp_right (List.mem_cons_of_mem _)

theorem Memory.mem_erase {m : Memory} {a : Nat} {c : Host.Cell} (h : c ∈ Memory.erase m a) : c ∈ m := by
  induction m with
  | nil => exact h
  | cons d m ih =>
    obtain ⟨k, v⟩ := d
    simp only [Memory.erase] at h
    split at h
    · exact List.mem_cons_of_mem _ h
    · rcases List.mem_cons.1 h with h | h
      · exact h ▸ List.mem_cons_self
      · exact List.mem_cons_of_mem _ (ih h)

/-- An entry of a memory after a write is the written one or an old one. -/
theorem Memory.mem_write {sp : Space} {m : Memory} {a : Nat} {b : Byte} {c : Host.Cell} (h : c ∈ Memory.write sp m a b) :
    c = (a, b) ∨ c ∈ m := by
  unfold Memory.write at h
  split at h
  · exact .inr (Memory.mem_erase h)
  · exact Memory.mem_insert h

/-- A write keeps the canonical form. -/
theorem Memory.wf_write {sp : Space} {m : Memory} (h : Memory.wf sp m = true) (a : Nat) (b : Byte) :
    Memory.wf sp (Memory.write sp m a b) = true := by
  simp only [Memory.wf, Bool.and_eq_true, List.all_eq_true, decide_eq_true_eq] at h ⊢
  refine ⟨?_, fun c hc => ?_⟩
  · unfold Memory.write
    split
    · exact Memory.risesFrom_erase h.1 a
    · exact Memory.risesFrom_insert h.1 (Nat.zero_le a) b
  · unfold Memory.write at hc
    split at hc
    · exact h.2 c (Memory.mem_erase hc)
    · rcases Memory.mem_insert hc with rfl | hc
      · assumption
      · exact h.2 c hc

/-- The empty memory has the canonical form. -/
@[simp] theorem Memory.wf_nil (sp : Space) : Memory.wf sp [] = true := rfl

@[simp] theorem Memory.find_nil (a : Nat) : Memory.find [] a = none := rfl

@[simp] theorem Memory.read_nil (sp : Space) (a : Nat) : Memory.read sp [] a = unlisted sp := rfl

/-- Reading after a write: the written byte at its address, the old byte elsewhere. -/
theorem Memory.read_write {sp : Space} {m : Memory} (h : Memory.wf sp m = true) (a : Nat) (b : Byte) (x : Nat) :
    Memory.read sp (Memory.write sp m a b) x = if x = a then some b else Memory.read sp m x := by
  simp only [Memory.wf, Bool.and_eq_true] at h
  unfold Memory.read Memory.write
  split_ifs with hb hx hx
  · rw [Memory.find_erase h.1, if_pos hx]; exact hb
  · rw [Memory.find_erase h.1, if_neg hx]
  · rw [Memory.find_insert, if_pos hx]
  · rw [Memory.find_insert, if_neg hx]

/-- In `CS` and `OUT` the read is the listed entry. -/
theorem Memory.read_out (m : Memory) (a : Nat) : Memory.read .out m a = Memory.find m a := by
  unfold Memory.read; cases Memory.find m a <;> rfl

theorem Memory.read_cs (m : Memory) (a : Nat) : Memory.read .cs m a = Memory.find m a := by
  unfold Memory.read; cases Memory.find m a <;> rfl

/-- A Window slot always holds a byte. -/
theorem Memory.read_win (m : Memory) (a : Nat) : Memory.read .win m a = some ((Memory.read .win m a).getD Config.WINDOW_FILL) := by
  unfold Memory.read; cases Memory.find m a <;> rfl

theorem placeBytes_wf {m : Memory} (h : Memory.wf .cs m = true) (a : Nat) (bs : List Byte) :
    Memory.wf .cs (placeBytes m a bs) = true := by
  induction bs generalizing m a with
  | nil => exact h
  | cons b bs ih => exact ih (Memory.wf_write h a b) (a + 1)

end Sys2Proof.Machine
end

