-- ==== Sys2Proof/Laws/State.lean ====
section
/-! SUPPORT. What each named update of the state does to each field: one lemma per field and update, so that no later proof
unfolds a record update. -/

namespace Sys2Proof.Machine

@[simp] theorem raise_params (k : EngineError) (s : State) : (raise k s).params = s.params := rfl
@[simp] theorem raise_phase (k : EngineError) (s : State) : (raise k s).phase = .error := rfl
@[simp] theorem raise_err (k : EngineError) (s : State) : (raise k s).err = some k := rfl
@[simp] theorem raise_control (k : EngineError) (s : State) : (raise k s).control = s.control := rfl
@[simp] theorem raise_mask (k : EngineError) (s : State) : (raise k s).mask = s.mask := rfl
@[simp] theorem raise_pos (k : EngineError) (s : State) : (raise k s).pos = s.pos := rfl
@[simp] theorem raise_win (k : EngineError) (s : State) : (raise k s).win = s.win := rfl
@[simp] theorem raise_b0 (k : EngineError) (s : State) : (raise k s).b0 = s.b0 := rfl
@[simp] theorem raise_b1 (k : EngineError) (s : State) : (raise k s).b1 = s.b1 := rfl
@[simp] theorem raise_msrc (k : EngineError) (s : State) : (raise k s).msrc = s.msrc := rfl
@[simp] theorem raise_cnt (k : EngineError) (s : State) : (raise k s).cnt = s.cnt := rfl
@[simp] theorem raise_inPos (k : EngineError) (s : State) : (raise k s).inPos = s.inPos := rfl
@[simp] theorem raise_inLen (k : EngineError) (s : State) : (raise k s).inLen = s.inLen := rfl
@[simp] theorem raise_outCount (k : EngineError) (s : State) : (raise k s).outCount = s.outCount := rfl
@[simp] theorem raise_targetLen (k : EngineError) (s : State) : (raise k s).targetLen = s.targetLen := rfl
@[simp] theorem raise_cs (k : EngineError) (s : State) : (raise k s).cs = s.cs := rfl
@[simp] theorem raise_out (k : EngineError) (s : State) : (raise k s).out = s.out := rfl
@[simp] theorem raise_targetLenReg (k : EngineError) (s : State) : (raise k s).targetLenReg = s.targetLenReg := rfl
@[simp] theorem raise_inLenReg (k : EngineError) (s : State) : (raise k s).inLenReg = s.inLenReg := rfl
@[simp] theorem raise_schedule (k : EngineError) (s : State) : (raise k s).schedule = s.schedule := rfl
@[simp] theorem raise_freeCount (k : EngineError) (s : State) : (raise k s).freeCount = s.freeCount := rfl

@[simp] theorem advance_params (s : State) : (advance s).params = s.params := rfl
@[simp] theorem advance_phase (s : State) : (advance s).phase = s.phase := rfl
@[simp] theorem advance_err (s : State) : (advance s).err = s.err := rfl
@[simp] theorem advance_control (s : State) : (advance s).control = s.control := rfl
@[simp] theorem advance_mask (s : State) : (advance s).mask = s.mask := rfl
@[simp] theorem advance_pos (s : State) : (advance s).pos = s.pos := rfl
@[simp] theorem advance_win (s : State) : (advance s).win = s.win := rfl
@[simp] theorem advance_b0 (s : State) : (advance s).b0 = s.b0 := rfl
@[simp] theorem advance_b1 (s : State) : (advance s).b1 = s.b1 := rfl
@[simp] theorem advance_msrc (s : State) : (advance s).msrc = s.msrc := rfl
@[simp] theorem advance_cnt (s : State) : (advance s).cnt = s.cnt := rfl
@[simp] theorem advance_inPos (s : State) : (advance s).inPos = s.inPos + 1 := rfl
@[simp] theorem advance_inLen (s : State) : (advance s).inLen = s.inLen := rfl
@[simp] theorem advance_outCount (s : State) : (advance s).outCount = s.outCount := rfl
@[simp] theorem advance_targetLen (s : State) : (advance s).targetLen = s.targetLen := rfl
@[simp] theorem advance_cs (s : State) : (advance s).cs = s.cs := rfl
@[simp] theorem advance_out (s : State) : (advance s).out = s.out := rfl
@[simp] theorem advance_targetLenReg (s : State) : (advance s).targetLenReg = s.targetLenReg := rfl
@[simp] theorem advance_inLenReg (s : State) : (advance s).inLenReg = s.inLenReg := rfl
@[simp] theorem advance_schedule (s : State) : (advance s).schedule = s.schedule := rfl
@[simp] theorem advance_freeCount (s : State) : (advance s).freeCount = s.freeCount := rfl

@[simp] theorem emit_params (c : Byte) (s : State) : (emit c s).params = s.params := rfl
@[simp] theorem emit_phase (c : Byte) (s : State) : (emit c s).phase = s.phase := rfl
@[simp] theorem emit_err (c : Byte) (s : State) : (emit c s).err = s.err := rfl
@[simp] theorem emit_control (c : Byte) (s : State) : (emit c s).control = s.control := rfl
@[simp] theorem emit_mask (c : Byte) (s : State) : (emit c s).mask = s.mask := rfl
@[simp] theorem emit_pos (c : Byte) (s : State) : (emit c s).pos = s.pos := rfl
@[simp] theorem emit_win (c : Byte) (s : State) : (emit c s).win = s.win := rfl
@[simp] theorem emit_b0 (c : Byte) (s : State) : (emit c s).b0 = s.b0 := rfl
@[simp] theorem emit_b1 (c : Byte) (s : State) : (emit c s).b1 = s.b1 := rfl
@[simp] theorem emit_msrc (c : Byte) (s : State) : (emit c s).msrc = s.msrc := rfl
@[simp] theorem emit_cnt (c : Byte) (s : State) : (emit c s).cnt = s.cnt := rfl
@[simp] theorem emit_inPos (c : Byte) (s : State) : (emit c s).inPos = s.inPos := rfl
@[simp] theorem emit_inLen (c : Byte) (s : State) : (emit c s).inLen = s.inLen := rfl
@[simp] theorem emit_outCount (c : Byte) (s : State) : (emit c s).outCount = s.outCount + 1 := rfl
@[simp] theorem emit_targetLen (c : Byte) (s : State) : (emit c s).targetLen = s.targetLen := rfl
@[simp] theorem emit_cs (c : Byte) (s : State) : (emit c s).cs = s.cs := rfl
@[simp] theorem emit_out (c : Byte) (s : State) : (emit c s).out = Memory.write .out s.out s.outCount c := rfl
@[simp] theorem emit_targetLenReg (c : Byte) (s : State) : (emit c s).targetLenReg = s.targetLenReg := rfl
@[simp] theorem emit_inLenReg (c : Byte) (s : State) : (emit c s).inLenReg = s.inLenReg := rfl
@[simp] theorem emit_schedule (c : Byte) (s : State) : (emit c s).schedule = s.schedule := rfl
@[simp] theorem emit_freeCount (c : Byte) (s : State) : (emit c s).freeCount = s.freeCount := rfl

@[simp] theorem winWrite_params (c : Byte) (s : State) : (winWrite c s).params = s.params := rfl
@[simp] theorem winWrite_phase (c : Byte) (s : State) : (winWrite c s).phase = s.phase := rfl
@[simp] theorem winWrite_err (c : Byte) (s : State) : (winWrite c s).err = s.err := rfl
@[simp] theorem winWrite_control (c : Byte) (s : State) : (winWrite c s).control = s.control := rfl
@[simp] theorem winWrite_mask (c : Byte) (s : State) : (winWrite c s).mask = s.mask := rfl
@[simp] theorem winWrite_pos (c : Byte) (s : State) : (winWrite c s).pos = s.pos + 1 := rfl
@[simp] theorem winWrite_win (c : Byte) (s : State) : (winWrite c s).win = Memory.write .win s.win s.pos.toNat c := rfl
@[simp] theorem winWrite_b0 (c : Byte) (s : State) : (winWrite c s).b0 = s.b0 := rfl
@[simp] theorem winWrite_b1 (c : Byte) (s : State) : (winWrite c s).b1 = s.b1 := rfl
@[simp] theorem winWrite_msrc (c : Byte) (s : State) : (winWrite c s).msrc = s.msrc := rfl
@[simp] theorem winWrite_cnt (c : Byte) (s : State) : (winWrite c s).cnt = s.cnt := rfl
@[simp] theorem winWrite_inPos (c : Byte) (s : State) : (winWrite c s).inPos = s.inPos := rfl
@[simp] theorem winWrite_inLen (c : Byte) (s : State) : (winWrite c s).inLen = s.inLen := rfl
@[simp] theorem winWrite_outCount (c : Byte) (s : State) : (winWrite c s).outCount = s.outCount := rfl
@[simp] theorem winWrite_targetLen (c : Byte) (s : State) : (winWrite c s).targetLen = s.targetLen := rfl
@[simp] theorem winWrite_cs (c : Byte) (s : State) : (winWrite c s).cs = s.cs := rfl
@[simp] theorem winWrite_out (c : Byte) (s : State) : (winWrite c s).out = s.out := rfl
@[simp] theorem winWrite_targetLenReg (c : Byte) (s : State) : (winWrite c s).targetLenReg = s.targetLenReg := rfl
@[simp] theorem winWrite_inLenReg (c : Byte) (s : State) : (winWrite c s).inLenReg = s.inLenReg := rfl
@[simp] theorem winWrite_schedule (c : Byte) (s : State) : (winWrite c s).schedule = s.schedule := rfl
@[simp] theorem winWrite_freeCount (c : Byte) (s : State) : (winWrite c s).freeCount = s.freeCount := rfl

@[simp] theorem loadControl_params (f : Byte) (s : State) : (loadControl f s).params = s.params := rfl
@[simp] theorem loadControl_phase (f : Byte) (s : State) : (loadControl f s).phase = s.phase := rfl
@[simp] theorem loadControl_err (f : Byte) (s : State) : (loadControl f s).err = s.err := rfl
@[simp] theorem loadControl_control (f : Byte) (s : State) : (loadControl f s).control = f := rfl
@[simp] theorem loadControl_mask (f : Byte) (s : State) : (loadControl f s).mask = Config.MASK_FIRST := rfl
@[simp] theorem loadControl_pos (f : Byte) (s : State) : (loadControl f s).pos = s.pos := rfl
@[simp] theorem loadControl_win (f : Byte) (s : State) : (loadControl f s).win = s.win := rfl
@[simp] theorem loadControl_b0 (f : Byte) (s : State) : (loadControl f s).b0 = s.b0 := rfl
@[simp] theorem loadControl_b1 (f : Byte) (s : State) : (loadControl f s).b1 = s.b1 := rfl
@[simp] theorem loadControl_msrc (f : Byte) (s : State) : (loadControl f s).msrc = s.msrc := rfl
@[simp] theorem loadControl_cnt (f : Byte) (s : State) : (loadControl f s).cnt = s.cnt := rfl
@[simp] theorem loadControl_inPos (f : Byte) (s : State) : (loadControl f s).inPos = s.inPos := rfl
@[simp] theorem loadControl_inLen (f : Byte) (s : State) : (loadControl f s).inLen = s.inLen := rfl
@[simp] theorem loadControl_outCount (f : Byte) (s : State) : (loadControl f s).outCount = s.outCount := rfl
@[simp] theorem loadControl_targetLen (f : Byte) (s : State) : (loadControl f s).targetLen = s.targetLen := rfl
@[simp] theorem loadControl_cs (f : Byte) (s : State) : (loadControl f s).cs = s.cs := rfl
@[simp] theorem loadControl_out (f : Byte) (s : State) : (loadControl f s).out = s.out := rfl
@[simp] theorem loadControl_targetLenReg (f : Byte) (s : State) : (loadControl f s).targetLenReg = s.targetLenReg := rfl
@[simp] theorem loadControl_inLenReg (f : Byte) (s : State) : (loadControl f s).inLenReg = s.inLenReg := rfl
@[simp] theorem loadControl_schedule (f : Byte) (s : State) : (loadControl f s).schedule = s.schedule := rfl
@[simp] theorem loadControl_freeCount (f : Byte) (s : State) : (loadControl f s).freeCount = s.freeCount := rfl

@[simp] theorem flagStep_params (s : State) : (flagStep s).params = s.params := rfl
@[simp] theorem flagStep_phase (s : State) : (flagStep s).phase = flagPhase (flagBit s.control s.mask) := rfl
@[simp] theorem flagStep_err (s : State) : (flagStep s).err = s.err := rfl
@[simp] theorem flagStep_control (s : State) : (flagStep s).control = s.control := rfl
@[simp] theorem flagStep_mask (s : State) : (flagStep s).mask = maskAdvance s.mask := rfl
@[simp] theorem flagStep_pos (s : State) : (flagStep s).pos = s.pos := rfl
@[simp] theorem flagStep_win (s : State) : (flagStep s).win = s.win := rfl
@[simp] theorem flagStep_b0 (s : State) : (flagStep s).b0 = s.b0 := rfl
@[simp] theorem flagStep_b1 (s : State) : (flagStep s).b1 = s.b1 := rfl
@[simp] theorem flagStep_msrc (s : State) : (flagStep s).msrc = s.msrc := rfl
@[simp] theorem flagStep_cnt (s : State) : (flagStep s).cnt = s.cnt := rfl
@[simp] theorem flagStep_inPos (s : State) : (flagStep s).inPos = s.inPos := rfl
@[simp] theorem flagStep_inLen (s : State) : (flagStep s).inLen = s.inLen := rfl
@[simp] theorem flagStep_outCount (s : State) : (flagStep s).outCount = s.outCount := rfl
@[simp] theorem flagStep_targetLen (s : State) : (flagStep s).targetLen = s.targetLen := rfl
@[simp] theorem flagStep_cs (s : State) : (flagStep s).cs = s.cs := rfl
@[simp] theorem flagStep_out (s : State) : (flagStep s).out = s.out := rfl
@[simp] theorem flagStep_targetLenReg (s : State) : (flagStep s).targetLenReg = s.targetLenReg := rfl
@[simp] theorem flagStep_inLenReg (s : State) : (flagStep s).inLenReg = s.inLenReg := rfl
@[simp] theorem flagStep_schedule (s : State) : (flagStep s).schedule = s.schedule := rfl
@[simp] theorem flagStep_freeCount (s : State) : (flagStep s).freeCount = s.freeCount := rfl

@[simp] theorem putLiteral_params (c : Byte) (s : State) : (putLiteral c s).params = s.params := rfl
@[simp] theorem putLiteral_phase (c : Byte) (s : State) : (putLiteral c s).phase = .query := rfl
@[simp] theorem putLiteral_err (c : Byte) (s : State) : (putLiteral c s).err = s.err := rfl
@[simp] theorem putLiteral_control (c : Byte) (s : State) : (putLiteral c s).control = s.control := rfl
@[simp] theorem putLiteral_mask (c : Byte) (s : State) : (putLiteral c s).mask = s.mask := rfl
@[simp] theorem putLiteral_pos (c : Byte) (s : State) : (putLiteral c s).pos = s.pos + 1 := rfl
@[simp] theorem putLiteral_win (c : Byte) (s : State) : (putLiteral c s).win = Memory.write .win s.win s.pos.toNat c := rfl
@[simp] theorem putLiteral_b0 (c : Byte) (s : State) : (putLiteral c s).b0 = s.b0 := rfl
@[simp] theorem putLiteral_b1 (c : Byte) (s : State) : (putLiteral c s).b1 = s.b1 := rfl
@[simp] theorem putLiteral_msrc (c : Byte) (s : State) : (putLiteral c s).msrc = s.msrc := rfl
@[simp] theorem putLiteral_cnt (c : Byte) (s : State) : (putLiteral c s).cnt = s.cnt := rfl
@[simp] theorem putLiteral_inPos (c : Byte) (s : State) : (putLiteral c s).inPos = s.inPos := rfl
@[simp] theorem putLiteral_inLen (c : Byte) (s : State) : (putLiteral c s).inLen = s.inLen := rfl
@[simp] theorem putLiteral_outCount (c : Byte) (s : State) : (putLiteral c s).outCount = s.outCount + 1 := rfl
@[simp] theorem putLiteral_targetLen (c : Byte) (s : State) : (putLiteral c s).targetLen = s.targetLen := rfl
@[simp] theorem putLiteral_cs (c : Byte) (s : State) : (putLiteral c s).cs = s.cs := rfl
@[simp] theorem putLiteral_out (c : Byte) (s : State) : (putLiteral c s).out = Memory.write .out s.out s.outCount c := rfl
@[simp] theorem putLiteral_targetLenReg (c : Byte) (s : State) : (putLiteral c s).targetLenReg = s.targetLenReg := rfl
@[simp] theorem putLiteral_inLenReg (c : Byte) (s : State) : (putLiteral c s).inLenReg = s.inLenReg := rfl
@[simp] theorem putLiteral_schedule (c : Byte) (s : State) : (putLiteral c s).schedule = s.schedule := rfl
@[simp] theorem putLiteral_freeCount (c : Byte) (s : State) : (putLiteral c s).freeCount = s.freeCount := rfl

@[simp] theorem latchB0_params (b : Byte) (s : State) : (latchB0 b s).params = s.params := rfl
@[simp] theorem latchB0_phase (b : Byte) (s : State) : (latchB0 b s).phase = .mB1 := rfl
@[simp] theorem latchB0_err (b : Byte) (s : State) : (latchB0 b s).err = s.err := rfl
@[simp] theorem latchB0_control (b : Byte) (s : State) : (latchB0 b s).control = s.control := rfl
@[simp] theorem latchB0_mask (b : Byte) (s : State) : (latchB0 b s).mask = s.mask := rfl
@[simp] theorem latchB0_pos (b : Byte) (s : State) : (latchB0 b s).pos = s.pos := rfl
@[simp] theorem latchB0_win (b : Byte) (s : State) : (latchB0 b s).win = s.win := rfl
@[simp] theorem latchB0_b0 (b : Byte) (s : State) : (latchB0 b s).b0 = b := rfl
@[simp] theorem latchB0_b1 (b : Byte) (s : State) : (latchB0 b s).b1 = s.b1 := rfl
@[simp] theorem latchB0_msrc (b : Byte) (s : State) : (latchB0 b s).msrc = s.msrc := rfl
@[simp] theorem latchB0_cnt (b : Byte) (s : State) : (latchB0 b s).cnt = s.cnt := rfl
@[simp] theorem latchB0_inPos (b : Byte) (s : State) : (latchB0 b s).inPos = s.inPos := rfl
@[simp] theorem latchB0_inLen (b : Byte) (s : State) : (latchB0 b s).inLen = s.inLen := rfl
@[simp] theorem latchB0_outCount (b : Byte) (s : State) : (latchB0 b s).outCount = s.outCount := rfl
@[simp] theorem latchB0_targetLen (b : Byte) (s : State) : (latchB0 b s).targetLen = s.targetLen := rfl
@[simp] theorem latchB0_cs (b : Byte) (s : State) : (latchB0 b s).cs = s.cs := rfl
@[simp] theorem latchB0_out (b : Byte) (s : State) : (latchB0 b s).out = s.out := rfl
@[simp] theorem latchB0_targetLenReg (b : Byte) (s : State) : (latchB0 b s).targetLenReg = s.targetLenReg := rfl
@[simp] theorem latchB0_inLenReg (b : Byte) (s : State) : (latchB0 b s).inLenReg = s.inLenReg := rfl
@[simp] theorem latchB0_schedule (b : Byte) (s : State) : (latchB0 b s).schedule = s.schedule := rfl
@[simp] theorem latchB0_freeCount (b : Byte) (s : State) : (latchB0 b s).freeCount = s.freeCount := rfl

@[simp] theorem latchB1_params (b : Byte) (s : State) : (latchB1 b s).params = s.params := rfl
@[simp] theorem latchB1_phase (b : Byte) (s : State) : (latchB1 b s).phase = .mChk := rfl
@[simp] theorem latchB1_err (b : Byte) (s : State) : (latchB1 b s).err = s.err := rfl
@[simp] theorem latchB1_control (b : Byte) (s : State) : (latchB1 b s).control = s.control := rfl
@[simp] theorem latchB1_mask (b : Byte) (s : State) : (latchB1 b s).mask = s.mask := rfl
@[simp] theorem latchB1_pos (b : Byte) (s : State) : (latchB1 b s).pos = s.pos := rfl
@[simp] theorem latchB1_win (b : Byte) (s : State) : (latchB1 b s).win = s.win := rfl
@[simp] theorem latchB1_b0 (b : Byte) (s : State) : (latchB1 b s).b0 = s.b0 := rfl
@[simp] theorem latchB1_b1 (b : Byte) (s : State) : (latchB1 b s).b1 = b := rfl
@[simp] theorem latchB1_msrc (b : Byte) (s : State) : (latchB1 b s).msrc = s.msrc := rfl
@[simp] theorem latchB1_cnt (b : Byte) (s : State) : (latchB1 b s).cnt = s.cnt := rfl
@[simp] theorem latchB1_inPos (b : Byte) (s : State) : (latchB1 b s).inPos = s.inPos := rfl
@[simp] theorem latchB1_inLen (b : Byte) (s : State) : (latchB1 b s).inLen = s.inLen := rfl
@[simp] theorem latchB1_outCount (b : Byte) (s : State) : (latchB1 b s).outCount = s.outCount := rfl
@[simp] theorem latchB1_targetLen (b : Byte) (s : State) : (latchB1 b s).targetLen = s.targetLen := rfl
@[simp] theorem latchB1_cs (b : Byte) (s : State) : (latchB1 b s).cs = s.cs := rfl
@[simp] theorem latchB1_out (b : Byte) (s : State) : (latchB1 b s).out = s.out := rfl
@[simp] theorem latchB1_targetLenReg (b : Byte) (s : State) : (latchB1 b s).targetLenReg = s.targetLenReg := rfl
@[simp] theorem latchB1_inLenReg (b : Byte) (s : State) : (latchB1 b s).inLenReg = s.inLenReg := rfl
@[simp] theorem latchB1_schedule (b : Byte) (s : State) : (latchB1 b s).schedule = s.schedule := rfl
@[simp] theorem latchB1_freeCount (b : Byte) (s : State) : (latchB1 b s).freeCount = s.freeCount := rfl

@[simp] theorem copyStep_params (s : State) : (copyStep s).params = s.params := rfl
@[simp] theorem copyStep_phase (s : State) : (copyStep s).phase = if s.cnt - 1 = 0 then .query else .copy := rfl
@[simp] theorem copyStep_err (s : State) : (copyStep s).err = s.err := rfl
@[simp] theorem copyStep_control (s : State) : (copyStep s).control = s.control := rfl
@[simp] theorem copyStep_mask (s : State) : (copyStep s).mask = s.mask := rfl
@[simp] theorem copyStep_pos (s : State) : (copyStep s).pos = s.pos + 1 := rfl
@[simp] theorem copyStep_win (s : State) : (copyStep s).win = Memory.write .win s.win s.pos.toNat (winSlot s s.msrc) := rfl
@[simp] theorem copyStep_b0 (s : State) : (copyStep s).b0 = s.b0 := rfl
@[simp] theorem copyStep_b1 (s : State) : (copyStep s).b1 = s.b1 := rfl
@[simp] theorem copyStep_msrc (s : State) : (copyStep s).msrc = s.msrc + 1 := rfl
@[simp] theorem copyStep_cnt (s : State) : (copyStep s).cnt = s.cnt - 1 := rfl
@[simp] theorem copyStep_inPos (s : State) : (copyStep s).inPos = s.inPos := rfl
@[simp] theorem copyStep_inLen (s : State) : (copyStep s).inLen = s.inLen := rfl
@[simp] theorem copyStep_outCount (s : State) : (copyStep s).outCount = s.outCount + 1 := rfl
@[simp] theorem copyStep_targetLen (s : State) : (copyStep s).targetLen = s.targetLen := rfl
@[simp] theorem copyStep_cs (s : State) : (copyStep s).cs = s.cs := rfl
@[simp] theorem copyStep_out (s : State) : (copyStep s).out = Memory.write .out s.out s.outCount (winSlot s s.msrc) := rfl
@[simp] theorem copyStep_targetLenReg (s : State) : (copyStep s).targetLenReg = s.targetLenReg := rfl
@[simp] theorem copyStep_inLenReg (s : State) : (copyStep s).inLenReg = s.inLenReg := rfl
@[simp] theorem copyStep_schedule (s : State) : (copyStep s).schedule = s.schedule := rfl
@[simp] theorem copyStep_freeCount (s : State) : (copyStep s).freeCount = s.freeCount := rfl

@[simp] theorem finishDecode_params (s : State) : (finishDecode s).params = s.params := rfl
@[simp] theorem finishDecode_phase (s : State) : (finishDecode s).phase = .done := rfl
@[simp] theorem finishDecode_err (s : State) : (finishDecode s).err = s.err := rfl
@[simp] theorem finishDecode_control (s : State) : (finishDecode s).control = s.control := rfl
@[simp] theorem finishDecode_mask (s : State) : (finishDecode s).mask = s.mask := rfl
@[simp] theorem finishDecode_pos (s : State) : (finishDecode s).pos = s.pos := rfl
@[simp] theorem finishDecode_win (s : State) : (finishDecode s).win = s.win := rfl
@[simp] theorem finishDecode_b0 (s : State) : (finishDecode s).b0 = s.b0 := rfl
@[simp] theorem finishDecode_b1 (s : State) : (finishDecode s).b1 = s.b1 := rfl
@[simp] theorem finishDecode_msrc (s : State) : (finishDecode s).msrc = s.msrc := rfl
@[simp] theorem finishDecode_cnt (s : State) : (finishDecode s).cnt = s.cnt := rfl
@[simp] theorem finishDecode_inPos (s : State) : (finishDecode s).inPos = s.inPos := rfl
@[simp] theorem finishDecode_inLen (s : State) : (finishDecode s).inLen = s.inLen := rfl
@[simp] theorem finishDecode_outCount (s : State) : (finishDecode s).outCount = s.outCount := rfl
@[simp] theorem finishDecode_targetLen (s : State) : (finishDecode s).targetLen = s.targetLen := rfl
@[simp] theorem finishDecode_cs (s : State) : (finishDecode s).cs = s.cs := rfl
@[simp] theorem finishDecode_out (s : State) : (finishDecode s).out = s.out := rfl
@[simp] theorem finishDecode_targetLenReg (s : State) : (finishDecode s).targetLenReg = s.targetLenReg := rfl
@[simp] theorem finishDecode_inLenReg (s : State) : (finishDecode s).inLenReg = s.inLenReg := rfl
@[simp] theorem finishDecode_schedule (s : State) : (finishDecode s).schedule = s.schedule := rfl
@[simp] theorem finishDecode_freeCount (s : State) : (finishDecode s).freeCount = s.freeCount := rfl

@[simp] theorem start_params (l : Nat) (n : Nat) (s : State) : (start l n s).params = s.params := rfl
@[simp] theorem start_phase (l : Nat) (n : Nat) (s : State) : (start l n s).phase = .query := rfl
@[simp] theorem start_err (l : Nat) (n : Nat) (s : State) : (start l n s).err = none := rfl
@[simp] theorem start_control (l : Nat) (n : Nat) (s : State) : (start l n s).control = Config.freeByte s.freeCount := rfl
@[simp] theorem start_mask (l : Nat) (n : Nat) (s : State) : (start l n s).mask = Config.MASK_RELOAD := rfl
@[simp] theorem start_pos (l : Nat) (n : Nat) (s : State) : (start l n s).pos = Config.POS_INIT := rfl
@[simp] theorem start_win (l : Nat) (n : Nat) (s : State) : (start l n s).win = [] := rfl
@[simp] theorem start_b0 (l : Nat) (n : Nat) (s : State) : (start l n s).b0 = Config.freeByte (s.freeCount + 1) := rfl
@[simp] theorem start_b1 (l : Nat) (n : Nat) (s : State) : (start l n s).b1 = Config.freeByte (s.freeCount + 2) := rfl
@[simp] theorem start_msrc (l : Nat) (n : Nat) (s : State) : (start l n s).msrc = Config.freeSlot s.freeCount := rfl
@[simp] theorem start_cnt (l : Nat) (n : Nat) (s : State) : (start l n s).cnt = BitVec.ofNat 5 (Config.freeCopyCount s.freeCount).val := rfl
@[simp] theorem start_inPos (l : Nat) (n : Nat) (s : State) : (start l n s).inPos = 0 := rfl
@[simp] theorem start_inLen (l : Nat) (n : Nat) (s : State) : (start l n s).inLen = l := rfl
@[simp] theorem start_outCount (l : Nat) (n : Nat) (s : State) : (start l n s).outCount = 0 := rfl
@[simp] theorem start_targetLen (l : Nat) (n : Nat) (s : State) : (start l n s).targetLen = n := rfl
@[simp] theorem start_cs (l : Nat) (n : Nat) (s : State) : (start l n s).cs = s.cs := rfl
@[simp] theorem start_out (l : Nat) (n : Nat) (s : State) : (start l n s).out = [] := rfl
@[simp] theorem start_targetLenReg (l : Nat) (n : Nat) (s : State) : (start l n s).targetLenReg = s.targetLenReg := rfl
@[simp] theorem start_inLenReg (l : Nat) (n : Nat) (s : State) : (start l n s).inLenReg = s.inLenReg := rfl
@[simp] theorem start_schedule (l : Nat) (n : Nat) (s : State) : (start l n s).schedule = s.schedule := rfl
@[simp] theorem start_freeCount (l : Nat) (n : Nat) (s : State) : (start l n s).freeCount = s.freeCount + 3 := rfl

@[simp] theorem hardReset_params (s : State) : (hardReset s).params = s.params := rfl
@[simp] theorem hardReset_phase (s : State) : (hardReset s).phase = (State.resetAt s.params).phase := rfl
@[simp] theorem hardReset_err (s : State) : (hardReset s).err = (State.resetAt s.params).err := rfl
@[simp] theorem hardReset_control (s : State) : (hardReset s).control = (State.resetAt s.params).control := rfl
@[simp] theorem hardReset_mask (s : State) : (hardReset s).mask = (State.resetAt s.params).mask := rfl
@[simp] theorem hardReset_pos (s : State) : (hardReset s).pos = (State.resetAt s.params).pos := rfl
@[simp] theorem hardReset_win (s : State) : (hardReset s).win = (State.resetAt s.params).win := rfl
@[simp] theorem hardReset_b0 (s : State) : (hardReset s).b0 = (State.resetAt s.params).b0 := rfl
@[simp] theorem hardReset_b1 (s : State) : (hardReset s).b1 = (State.resetAt s.params).b1 := rfl
@[simp] theorem hardReset_msrc (s : State) : (hardReset s).msrc = (State.resetAt s.params).msrc := rfl
@[simp] theorem hardReset_cnt (s : State) : (hardReset s).cnt = (State.resetAt s.params).cnt := rfl
@[simp] theorem hardReset_inPos (s : State) : (hardReset s).inPos = (State.resetAt s.params).inPos := rfl
@[simp] theorem hardReset_inLen (s : State) : (hardReset s).inLen = (State.resetAt s.params).inLen := rfl
@[simp] theorem hardReset_outCount (s : State) : (hardReset s).outCount = (State.resetAt s.params).outCount := rfl
@[simp] theorem hardReset_targetLen (s : State) : (hardReset s).targetLen = (State.resetAt s.params).targetLen := rfl
@[simp] theorem hardReset_cs (s : State) : (hardReset s).cs = s.cs := rfl
@[simp] theorem hardReset_out (s : State) : (hardReset s).out = (State.resetAt s.params).out := rfl
@[simp] theorem hardReset_targetLenReg (s : State) : (hardReset s).targetLenReg = (State.resetAt s.params).targetLenReg := rfl
@[simp] theorem hardReset_inLenReg (s : State) : (hardReset s).inLenReg = (State.resetAt s.params).inLenReg := rfl
@[simp] theorem hardReset_schedule (s : State) : (hardReset s).schedule = s.schedule := rfl
@[simp] theorem hardReset_freeCount (s : State) : (hardReset s).freeCount = s.freeCount := rfl

@[simp] theorem reset_params : State.reset.params = {} := rfl
@[simp] theorem reset_phase : State.reset.phase = .idle := rfl
@[simp] theorem reset_err : State.reset.err = none := rfl
@[simp] theorem reset_inPos : State.reset.inPos = 0 := rfl
@[simp] theorem reset_outCount : State.reset.outCount = 0 := rfl
@[simp] theorem reset_mask : State.reset.mask = Config.MASK_RELOAD := rfl
@[simp] theorem reset_pos : State.reset.pos = Config.POS_INIT := rfl
@[simp] theorem reset_win : State.reset.win = [] := rfl
@[simp] theorem reset_out : State.reset.out = [] := rfl
@[simp] theorem reset_cs : State.reset.cs = [] := rfl
@[simp] theorem reset_schedule : State.reset.schedule = [] := rfl
@[simp] theorem reset_inLen : State.reset.inLen = 0 := rfl
@[simp] theorem reset_targetLen : State.reset.targetLen = 0 := rfl
@[simp] theorem reset_cnt : State.reset.cnt = 0 := rfl

@[simp] theorem resetAt_params (p : Config.Params) : (State.resetAt p).params = p := rfl
@[simp] theorem resetAt_phase (p : Config.Params) : (State.resetAt p).phase = .idle := rfl
@[simp] theorem resetAt_err (p : Config.Params) : (State.resetAt p).err = none := rfl
@[simp] theorem resetAt_inPos (p : Config.Params) : (State.resetAt p).inPos = 0 := rfl
@[simp] theorem resetAt_outCount (p : Config.Params) : (State.resetAt p).outCount = 0 := rfl
@[simp] theorem resetAt_mask (p : Config.Params) : (State.resetAt p).mask = Config.MASK_RELOAD := rfl
@[simp] theorem resetAt_pos (p : Config.Params) : (State.resetAt p).pos = Config.POS_INIT := rfl
@[simp] theorem resetAt_win (p : Config.Params) : (State.resetAt p).win = [] := rfl
@[simp] theorem resetAt_out (p : Config.Params) : (State.resetAt p).out = [] := rfl
@[simp] theorem resetAt_cs (p : Config.Params) : (State.resetAt p).cs = [] := rfl
@[simp] theorem resetAt_schedule (p : Config.Params) : (State.resetAt p).schedule = [] := rfl
@[simp] theorem resetAt_inLen (p : Config.Params) : (State.resetAt p).inLen = 0 := rfl
@[simp] theorem resetAt_targetLen (p : Config.Params) : (State.resetAt p).targetLen = 0 := rfl
@[simp] theorem resetAt_cnt (p : Config.Params) : (State.resetAt p).cnt = 0 := rfl
@[simp] theorem resetAt_targetLenReg (p : Config.Params) : (State.resetAt p).targetLenReg = 0 := rfl
@[simp] theorem resetAt_inLenReg (p : Config.Params) : (State.resetAt p).inLenReg = 0 := rfl

end Sys2Proof.Machine
end

