-- ==== Sys2Proof/Laws/Ops.lean ====
section
/-! SUPPORT. What each shared operation can do, said once: the stream reads, the Window, the match datapath, one sequencer step,
one step of the machine. -/

namespace Sys2Proof.Machine

/-- The two cases of a read whose byte is known. -/
theorem consume_cases (k : State → State) (s : State) :
    (s.inLen ≤ s.inPos ∧ consume k s = raise .malformedInput s) ∨
    (s.inPos < s.inLen ∧ consume k s = k (advance s)) := by
  unfold consume
  split
  · exact .inl ⟨‹_›, rfl⟩
  · exact .inr ⟨by omega, rfl⟩

@[simp] theorem consume_of_lt {k : State → State} {s : State} (h : s.inPos < s.inLen) : consume k s = k (advance s) := by
  unfold consume; rw [if_neg (by omega)]

@[simp] theorem consume_of_le {k : State → State} {s : State} (h : s.inLen ≤ s.inPos) :
    consume k s = raise .malformedInput s := by
  unfold consume; rw [if_pos h]

/-- The next states of a StreamRead. -/
theorem streamRead_cases {k : Byte → State → State} {s t : State} (h : streamRead k s = .next t) :
    (s.inLen ≤ s.inPos ∧ t = raise .malformedInput s) ∨
    (s.inPos < s.inLen ∧ ∃ v, Memory.read .cs s.cs s.inPos = some v ∧ t = k v (advance s)) := by
  unfold streamRead at h
  split at h
  · exact .inl ⟨‹_›, by cases h; rfl⟩
  · split at h
    · exact .inr ⟨by omega, _, ‹_›, by cases h; rfl⟩
    · cases h

theorem streamRead_of_le {k : Byte → State → State} {s : State} (h : s.inLen ≤ s.inPos) :
    streamRead k s = .next (raise .malformedInput s) := by
  unfold streamRead; rw [if_pos h]

theorem streamRead_of_some {k : Byte → State → State} {s : State} {v : Byte} (h : s.inPos < s.inLen)
    (hv : Memory.read .cs s.cs s.inPos = some v) : streamRead k s = .next (k v (advance s)) := by
  unfold streamRead; rw [if_neg (by omega), hv]

theorem streamRead_of_none {k : Byte → State → State} {s : State} (h : s.inPos < s.inLen)
    (hv : Memory.read .cs s.cs s.inPos = none) : streamRead k s = .refused .streamByteAbsent := by
  unfold streamRead; rw [if_neg (by omega), hv]

/-- The slots after a Window write. -/
theorem winSlot_winWrite {s : State} (h : Memory.wf .win s.win = true) (c : Byte) (slot : Slot) :
    winSlot (winWrite c s) slot = if slot = s.pos then c else winSlot s slot := by
  unfold winSlot
  rw [winWrite_win, Memory.read_write h]
  by_cases hs : slot = s.pos
  · simp [hs]
  · rw [if_neg hs, if_neg (fun h => hs (BitVec.eq_of_toNat_eq h))]

/-- The slots of a state are those of its Window. -/
theorem winSlot_congr {s t : State} (h : s.win = t.win) (slot : Slot) : winSlot s slot = winSlot t slot := by
  unfold winSlot; rw [h]

/-- `matchCheck` either faults or sets up the copy. -/
theorem matchCheck_cases (s : State) :
    (backRefInvalid s.pos (matchPositionOf s.b0 s.b1) s.outCount = true ∧ matchCheck s = raise .invalidBackRef s) ∨
    (backRefInvalid s.pos (matchPositionOf s.b0 s.b1) s.outCount = false ∧
      matchCheck s = { s with
        msrc := matchPositionOf s.b0 s.b1
        cnt := copyCount (rawLengthOf s.b0) s.targetLen s.outCount
        phase := .copy }) := by
  unfold matchCheck
  split
  · exact .inl ⟨‹_›, rfl⟩
  · exact .inr ⟨Bool.eq_false_iff.2 ‹_›, rfl⟩

/-- The bytes of a MATCH decode to its operands. -/
@[simp] theorem rawLengthOf_matchByte0 (l : BitVec 4) (p : Slot) : rawLengthOf (matchByte0 l p) = l := by
  unfold rawLengthOf matchByte0
  ext i hi
  interval_cases i <;> simp

@[simp] theorem matchPositionOf_matchBytes (l : BitVec 4) (p : Slot) :
    matchPositionOf (matchByte0 l p) (matchByte1 p) = p := by
  unfold matchPositionOf positionHighOf matchByte0 matchByte1
  ext i hi
  interval_cases i <;> simp

/-- The operands of a pair encode to its bytes. -/
@[simp] theorem matchByte0_of_pair (b0 b1 : Byte) : matchByte0 (rawLengthOf b0) (matchPositionOf b0 b1) = b0 := by
  unfold rawLengthOf matchPositionOf positionHighOf matchByte0
  ext i hi
  interval_cases i <;> simp

@[simp] theorem matchByte1_of_pair (b0 b1 : Byte) : matchByte1 (matchPositionOf b0 b1) = b1 := by
  unfold matchPositionOf positionHighOf matchByte1
  ext i hi
  interval_cases i <;> simp

end Sys2Proof.Machine
end

