-- ==== Sys2Proof/Laws/Match.lean ====
section
/-! SUPPORT. The laws of the match copy: what `n` copy steps change, that they are `n` steps of the phase machine, and what they read
and write (42_match.md R103 to R109). -/

namespace Sys2Proof.Machine

theorem copySteps_succ (n : Nat) (s : State) : copySteps (n + 1) s = copySteps n (copyStep s) := rfl

/-- The last of `n + 1` copy steps may be split off. -/
theorem copySteps_last (n : Nat) (s : State) : copySteps (n + 1) s = copyStep (copySteps n s) := by
  induction n generalizing s with
  | zero => rfl
  | succ n ih => rw [copySteps_succ, ih (copyStep s)]; rfl

@[simp] theorem copySteps_err (n : Nat) (s : State) : (copySteps n s).err = s.err := by
  induction n generalizing s with
  | zero => rfl
  | succ n ih => rw [copySteps_succ, ih]; rfl

@[simp] theorem copySteps_params (n : Nat) (s : State) : (copySteps n s).params = s.params := by
  induction n generalizing s with
  | zero => rfl
  | succ n ih => rw [copySteps_succ, ih]; rfl

@[simp] theorem copySteps_control (n : Nat) (s : State) : (copySteps n s).control = s.control := by
  induction n generalizing s with
  | zero => rfl
  | succ n ih => rw [copySteps_succ, ih]; rfl

@[simp] theorem copySteps_mask (n : Nat) (s : State) : (copySteps n s).mask = s.mask := by
  induction n generalizing s with
  | zero => rfl
  | succ n ih => rw [copySteps_succ, ih]; rfl

@[simp] theorem copySteps_b0 (n : Nat) (s : State) : (copySteps n s).b0 = s.b0 := by
  induction n generalizing s with
  | zero => rfl
  | succ n ih => rw [copySteps_succ, ih]; rfl

@[simp] theorem copySteps_b1 (n : Nat) (s : State) : (copySteps n s).b1 = s.b1 := by
  induction n generalizing s with
  | zero => rfl
  | succ n ih => rw [copySteps_succ, ih]; rfl

@[simp] theorem copySteps_inPos (n : Nat) (s : State) : (copySteps n s).inPos = s.inPos := by
  induction n generalizing s with
  | zero => rfl
  | succ n ih => rw [copySteps_succ, ih]; rfl

@[simp] theorem copySteps_inLen (n : Nat) (s : State) : (copySteps n s).inLen = s.inLen := by
  induction n generalizing s with
  | zero => rfl
  | succ n ih => rw [copySteps_succ, ih]; rfl

@[simp] theorem copySteps_targetLen (n : Nat) (s : State) : (copySteps n s).targetLen = s.targetLen := by
  induction n generalizing s with
  | zero => rfl
  | succ n ih => rw [copySteps_succ, ih]; rfl

@[simp] theorem copySteps_cs (n : Nat) (s : State) : (copySteps n s).cs = s.cs := by
  induction n generalizing s with
  | zero => rfl
  | succ n ih => rw [copySteps_succ, ih]; rfl

@[simp] theorem copySteps_targetLenReg (n : Nat) (s : State) : (copySteps n s).targetLenReg = s.targetLenReg := by
  induction n generalizing s with
  | zero => rfl
  | succ n ih => rw [copySteps_succ, ih]; rfl

@[simp] theorem copySteps_inLenReg (n : Nat) (s : State) : (copySteps n s).inLenReg = s.inLenReg := by
  induction n generalizing s with
  | zero => rfl
  | succ n ih => rw [copySteps_succ, ih]; rfl

@[simp] theorem copySteps_schedule (n : Nat) (s : State) : (copySteps n s).schedule = s.schedule := by
  induction n generalizing s with
  | zero => rfl
  | succ n ih => rw [copySteps_succ, ih]; rfl

@[simp] theorem copySteps_freeCount (n : Nat) (s : State) : (copySteps n s).freeCount = s.freeCount := by
  induction n generalizing s with
  | zero => rfl
  | succ n ih => rw [copySteps_succ, ih]; rfl

@[simp] theorem copySteps_pos (n : Nat) (s : State) : (copySteps n s).pos = s.pos + BitVec.ofNat 12 n := by
  induction n generalizing s with
  | zero => simp [copySteps]
  | succ n ih => rw [copySteps_succ, ih, copyStep_pos, BitVec.ofNat_add]; bv_omega

@[simp] theorem copySteps_msrc (n : Nat) (s : State) : (copySteps n s).msrc = s.msrc + BitVec.ofNat 12 n := by
  induction n generalizing s with
  | zero => simp [copySteps]
  | succ n ih => rw [copySteps_succ, ih, copyStep_msrc, BitVec.ofNat_add]; bv_omega

@[simp] theorem copySteps_cnt (n : Nat) (s : State) : (copySteps n s).cnt = s.cnt - BitVec.ofNat 5 n := by
  induction n generalizing s with
  | zero => simp [copySteps]
  | succ n ih => rw [copySteps_succ, ih, copyStep_cnt, BitVec.ofNat_add]; bv_omega

@[simp] theorem copySteps_outCount (n : Nat) (s : State) : (copySteps n s).outCount = s.outCount + n := by
  induction n generalizing s with
  | zero => rfl
  | succ n ih => rw [copySteps_succ, ih, copyStep_outCount]; omega

theorem copySteps_phase (n : Nat) (s : State) :
    (copySteps (n + 1) s).phase = if s.cnt - BitVec.ofNat 5 (n + 1) = 0 then .query else .copy := by
  have h : s.cnt - BitVec.ofNat 5 n - 1 = s.cnt - (BitVec.ofNat 5 n + 1#5) := by bv_omega
  rw [copySteps_last, copyStep_phase, copySteps_cnt, BitVec.ofNat_add, h]

theorem copyStep_winWf {s : State} (h : Memory.wf .win s.win = true) : Memory.wf .win (copyStep s).win = true :=
  Memory.wf_write h _ _

theorem copyStep_outWf {s : State} (h : Memory.wf .out s.out = true) : Memory.wf .out (copyStep s).out = true :=
  Memory.wf_write h _ _

theorem copySteps_winWf {n : Nat} {s : State} (h : Memory.wf .win s.win = true) :
    Memory.wf .win (copySteps n s).win = true := by
  induction n generalizing s with
  | zero => exact h
  | succ n ih => exact ih (copyStep_winWf h)

theorem copySteps_outWf {n : Nat} {s : State} (h : Memory.wf .out s.out = true) :
    Memory.wf .out (copySteps n s).out = true := by
  induction n generalizing s with
  | zero => exact h
  | succ n ih => exact ih (copyStep_outWf h)

/-- The slots after one copy step. -/
theorem winSlot_copyStep {s : State} (h : Memory.wf .win s.win = true) (slot : Slot) :
    winSlot (copyStep s) slot = if slot = s.pos then winSlot s s.msrc else winSlot s slot :=
  winSlot_winWrite (s := emit (winSlot s s.msrc) s) h (winSlot s s.msrc) slot

/-- The output after one copy step. -/
theorem read_out_copyStep {s : State} (h : Memory.wf .out s.out = true) (a : Nat) :
    Memory.read .out (copyStep s).out a =
      if a = s.outCount then some (winSlot s s.msrc) else Memory.read .out s.out a :=
  Memory.read_write h _ _ a

/-- The state in which the copy of a complete and valid pair begins (42_match.md R100). -/
def copyBegun (l : BitVec 4) (p : Slot) (s : State) : State :=
  { s with
    inPos := s.inPos + 2
    b0 := matchByte0 l p
    b1 := matchByte1 p
    msrc := p
    cnt := copyCount l s.targetLen s.outCount
    phase := .copy }

/-- A `MATCH` whose pair is in the stream and whose back-reference is valid is its whole copy. -/
theorem execMatchRef_of_valid {s : State} {l : BitVec 4} {p : Slot}
    (h : s.inPos + 2 ≤ s.inLen) (hv : backRefInvalid s.pos p s.outCount = false) :
    execMatchRef l p s = .next (copySteps (copyCount l s.targetLen s.outCount).toNat (copyBegun l p s)) := by
  have h1 : s.inPos < s.inLen := by bv_omega
  have h2 : (latchB0 (matchByte0 l p) (advance s)).inPos < (latchB0 (matchByte0 l p) (advance s)).inLen := by
    simp only [latchB0_inPos, advance_inPos, latchB0_inLen, advance_inLen]; bv_omega
  have e : s.inPos + 1 + 1 = s.inPos + 2 := by bv_omega
  have e2 : matchCheck (latchB1 (matchByte1 p) (advance (latchB0 (matchByte0 l p) (advance s)))) = copyBegun l p s := by
    simp only [matchCheck, latchB1_pos, advance_pos, latchB0_pos, latchB1_b0, advance_b0, latchB0_b0, latchB1_b1,
      matchPositionOf_matchBytes, latchB1_outCount, advance_outCount, latchB0_outCount, hv, rawLengthOf_matchByte0]
    rw [if_neg (by simp)]
    simp only [latchB1, advance, latchB0, copyBegun, e]
  simp only [execMatchRef, consume_of_lt h1, consume_of_lt h2, matchFinish, e2]
  rfl

/-- As many steps of the phase machine as `cnt` says are the whole copy. -/
theorem seqSteps_copy (n : Nat) (s : State) (hp : s.phase = .copy) (hn : n = s.cnt.toNat) :
    seqSteps n s = .next (copySteps n s) := by
  induction n generalizing s with
  | zero => rfl
  | succ n ih =>
    simp only [seqSteps, seqStep, hp]
    rw [copySteps_succ]
    cases n with
    | zero => rfl
    | succ n =>
      apply ih
      · simp only [copyStep_phase, ite_eq_right_iff]; bv_omega
      · simp only [copyStep_cnt]; bv_omega

end Sys2Proof.Machine
end

