-- ==== Sys2Proof/Laws/PerInstr.lean ====
section
/-! SUPPORT. Statements made for every instruction, one lemma per constructor. -/

namespace Sys2Proof.Laws.StreamLength

/-- The stream bytes of an instruction: one, or two for a MATCH (30_encoding.md R61, R63, R64, R66), the bits of its row in whole
bytes less the flag, which is no stream bit of the token (R67). -/
def Statement (i : Instr) : Prop :=
  (encode i).length = (if i.role = .matchPair then 2 else 1) ∧ i.logicalBits / 8 = (encode i).length

theorem ctl (flags : Byte) : Statement (.ctl flags) := by
  simp [Statement, encode, Instr.role, Instr.logicalBits]

theorem lit (c : Byte) : Statement (.lit c) := by
  simp [Statement, encode, Instr.role, Instr.logicalBits]

theorem matchRef (rawLength : BitVec 4) (position : Slot) : Statement (.matchRef rawLength position) := by
  simp [Statement, encode, Instr.role, Instr.logicalBits]

end Sys2Proof.Laws.StreamLength
end

