-- ==== Sys2Proof/Laws/Step.lean ====
section
/-! SUPPORT. What one step can do, said once: the sequencer's (43_decode_sequence.md R115), the host's (10_state.md R33), the fetch
of a pair, runs of several steps, and the states a host read shows (10_state.md R35). -/

namespace Sys2Proof.Machine

/-- The next states of a sequencer step: one case for each row of R115, the four ends of the stream in one. -/
theorem seqStep_cases {s t : State} (h : seqStep s = .next t) :
    (s.phase = .query ∧ s.outCount = s.targetLen ∧ t = finishDecode s) ∨
    (s.phase = .query ∧ s.outCount ≠ s.targetLen ∧ s.mask ≠ Config.MASK_RELOAD ∧ t = flagStep s) ∨
    ((s.phase = .query ∧ s.outCount ≠ s.targetLen ∧ s.mask = Config.MASK_RELOAD ∨ s.phase = .lit ∨ s.phase = .mB0 ∨
      s.phase = .mB1) ∧ s.inLen ≤ s.inPos ∧ t = raise .malformedInput s) ∨
    (s.inPos < s.inLen ∧ ∃ v, Memory.read .cs s.cs s.inPos = some v ∧
      (s.phase = .query ∧ s.outCount ≠ s.targetLen ∧ s.mask = Config.MASK_RELOAD ∧ t = loadControl v (advance s) ∨
        s.phase = .lit ∧ t = putLiteral v (advance s) ∨
        s.phase = .mB0 ∧ t = latchB0 v (advance s) ∨
        s.phase = .mB1 ∧ t = latchB1 v (advance s))) ∨
    (s.phase = .mChk ∧ t = matchCheck s) ∨
    (s.phase = .copy ∧ t = copyStep s) := by
  cases hp : s.phase <;> simp only [seqStep, hp, queryStep] at h
  case query =>
    split_ifs at h with h1 h2
    · cases h; simp [h1]
    · rcases streamRead_cases h with ⟨h3, rfl⟩ | ⟨h3, v, hv, rfl⟩
      · simp [h1, h2, h3]
      · exact .inr (.inr (.inr (.inl ⟨h3, v, hv, .inl ⟨rfl, h1, h2, rfl⟩⟩)))
    · cases h; exact .inr (.inl ⟨rfl, h1, h2, rfl⟩)
  case lit =>
    rcases streamRead_cases h with ⟨h3, rfl⟩ | ⟨h3, v, hv, rfl⟩
    · simp [h3]
    · exact .inr (.inr (.inr (.inl ⟨h3, v, hv, .inr (.inl ⟨rfl, rfl⟩)⟩)))
  case mB0 =>
    rcases streamRead_cases h with ⟨h3, rfl⟩ | ⟨h3, v, hv, rfl⟩
    · simp [h3]
    · exact .inr (.inr (.inr (.inl ⟨h3, v, hv, .inr (.inr (.inl ⟨rfl, rfl⟩))⟩)))
  case mB1 =>
    rcases streamRead_cases h with ⟨h3, rfl⟩ | ⟨h3, v, hv, rfl⟩
    · simp [h3]
    · exact .inr (.inr (.inr (.inl ⟨h3, v, hv, .inr (.inr (.inr ⟨rfl, rfl⟩))⟩)))
  case mChk => cases h; simp
  case copy => cases h; simp
  all_goals cases h

/-- The sequencer steps in RUN only (R111). -/
theorem seqStep_inRun {s t : State} (h : seqStep s = .next t) : s.phase.inRun = true := by
  cases hp : s.phase <;> first | rfl | (simp only [seqStep, hp] at h; cases h)

/-- What a sequencer step never changes. -/
theorem seqStep_keeps {s t : State} (h : seqStep s = .next t) :
    t.cs = s.cs ∧ t.inLen = s.inLen ∧ t.targetLen = s.targetLen ∧ t.targetLenReg = s.targetLenReg ∧
      t.inLenReg = s.inLenReg ∧ t.schedule = s.schedule ∧ t.freeCount = s.freeCount ∧ t.params = s.params := by
  rcases seqStep_cases h with ⟨-, -, rfl⟩ | ⟨-, -, -, rfl⟩ | ⟨-, -, rfl⟩ | ⟨-, v, -, h⟩ | ⟨-, rfl⟩ | ⟨-, rfl⟩
  · simp
  · simp
  · simp
  · rcases h with ⟨-, -, -, rfl⟩ | ⟨-, rfl⟩ | ⟨-, rfl⟩ | ⟨-, rfl⟩ <;> simp
  · rcases matchCheck_cases s with ⟨-, e⟩ | ⟨-, e⟩ <;> rw [e] <;> simp
  · simp

/-- The next states of a host move. -/
theorem hostStep_cases {a : HostAction} {s t : State} (h : hostStep a s = .next t) :
    ((∃ v, a = .writeReg 0 v ∧ v.testBit 0 = true) ∧ s.phase.inRun = false ∧ t = start s.inLenReg s.targetLenReg s) ∨
    (a = .hardReset ∧ t = hardReset s) ∨
    (∃ x b, a = .writeStream x b ∧ s.phase.inRun = false ∧ x < 2 ^ s.params.inw ∧
      t = { s with cs := Memory.write .cs s.cs x b }) ∨
    (∃ n v, a = .writeReg n v ∧ t = { s with targetLenReg := t.targetLenReg, inLenReg := t.inLenReg } ∧
      (t.targetLenReg = s.targetLenReg ∨ t.targetLenReg = v % 2 ^ s.params.lenw) ∧
      (t.inLenReg = s.inLenReg ∨ t.inLenReg = v % 2 ^ s.params.inw)) := by
  cases a with
  | hardReset => cases h; exact .inr (.inl ⟨rfl, rfl⟩)
  | writeStream x b =>
    simp only [hostStep, hostWriteStream] at h
    split_ifs at h with hr hx
    cases h
    exact .inr (.inr (.inl ⟨x, b, rfl, by simpa using hr, by omega, rfl⟩))
  | writeReg n v =>
    simp only [hostStep] at h
    unfold hostWrite at h
    split at h
    · cases hv : v.testBit 0
      · simp only [hv] at h; cases h; exact .inr (.inr (.inr ⟨_, _, rfl, rfl, by simp, by simp⟩))
      · simp only [hv, startCommand] at h
        cases hr : s.phase.inRun
        · simp only [hr] at h; cases h; exact .inl ⟨⟨v, rfl, hv⟩, rfl, rfl⟩
        · simp only [hr] at h; cases h; exact .inr (.inr (.inr ⟨_, _, rfl, rfl, by simp, by simp⟩))
    all_goals first | (cases h; done) | (cases h; exact .inr (.inr (.inr ⟨_, _, rfl, rfl, by simp, by simp⟩)))

/-- A fetched pair: both its bytes are in the stream and below `in_len`. -/
theorem fetch_matchRef {s : State} {l : BitVec 4} {p : Slot} (h : fetch s = some (.matchRef l p)) :
    s.phase = .mB0 ∧ s.inPos + 2 ≤ s.inLen ∧
      ∃ v w, Memory.read .cs s.cs s.inPos = some v ∧ Memory.read .cs s.cs (s.inPos + 1) = some w ∧
        l = rawLengthOf v ∧ p = matchPositionOf v w := by
  unfold fetch at h
  split at h
  · cases h
  · rename_i r hr
    have hp : r = .matchPair := by
      cases r with
      | matchPair => rfl
      | control => cases hb : streamBytes s 2 s.inPos <;> simp [hb, decode] at h
      | literal => cases hb : streamBytes s 2 s.inPos <;> simp [hb, decode] at h
    subst hp
    have hphase : s.phase = .mB0 := by
      unfold fetchRole at hr
      split at hr <;> simp_all
    refine ⟨hphase, ?_⟩
    match hb : streamBytes s 2 s.inPos with
    | [] => simp [hb, decode] at h
    | [_] => simp [hb, decode] at h
    | v :: w :: rest =>
      simp only [hb, decode, Option.some.injEq, Instr.matchRef.injEq] at h
      simp only [streamBytes] at hb
      split_ifs at hb with h1 h2 <;> split at hb <;> (try split at hb) <;> simp only [List.cons.injEq, reduceCtorEq, and_false] at hb
      rename_i _ v' hv' _ w' hw'
      exact ⟨by bv_omega, v, w, by rw [hv', hb.1], by rw [hw', hb.2.1], h.1.symm, h.2.symm⟩

/-- A run of `m + n` steps goes on after its first `m`. -/
theorem seqSteps_add {m : Nat} {s t : State} (h : seqSteps m s = .next t) (n : Nat) :
    seqSteps (m + n) s = seqSteps n t := by
  induction m generalizing s with
  | zero => cases h; rw [Nat.zero_add]
  | succ m ih =>
    rw [Nat.succ_add]
    simp only [seqSteps] at h ⊢
    split at h
    · exact ih h
    · cases h
    · cases h

/-- A property that every sequencer step keeps is kept by a run of them. -/
theorem seqSteps_keeps {P : State → Prop} (hP : ∀ s t, P s → seqStep s = .next t → P t) {n : Nat} {s t : State} (hs : P s)
    (h : seqSteps n s = .next t) : P t := by
  induction n generalizing s with
  | zero => cases h; exact hs
  | succ n ih =>
    simp only [seqSteps] at h
    split at h
    · exact ih (hP _ _ hs ‹_›) h
    · cases h
    · cases h

/-- An intermediate state is one that some number of sequencer steps, no more than asked for, comes to, and it is in RUN. -/
theorem intermediate_reached (moment : Nat) {s : State} (hs : s.phase.inRun = true) :
    ∃ j, j ≤ moment ∧ seqSteps j s = .next (intermediate moment s) ∧ (intermediate moment s).phase.inRun = true := by
  induction moment generalizing s with
  | zero => exact ⟨0, Nat.le_refl _, rfl, hs⟩
  | succ k ih =>
    unfold intermediate
    split
    · rename_i t ht
      split
      · obtain ⟨j, hj, e, hr⟩ := ih ‹t.phase.inRun = true›
        exact ⟨j + 1, by omega, by simp only [seqSteps, ht]; exact e, hr⟩
      · exact ⟨0, Nat.zero_le _, rfl, hs⟩
    · exact ⟨0, Nat.zero_le _, rfl, hs⟩
    · exact ⟨0, Nat.zero_le _, rfl, hs⟩

/-- Every state in RUN that the sequencer comes to is the intermediate state of its number of steps. -/
theorem intermediate_of_seqSteps {j : Nat} {s t : State} (h : seqSteps j s = .next t) (ht : t.phase.inRun = true) :
    intermediate j s = t := by
  induction j generalizing s with
  | zero => cases h; rfl
  | succ j ih =>
    simp only [seqSteps] at h
    split at h
    · rename_i u hu
      have hr : u.phase.inRun = true := by
        cases j with
        | zero => cases h; exact ht
        | succ j =>
          simp only [seqSteps] at h
          split at h
          · exact seqStep_inRun ‹_›
          · cases h
          · cases h
      unfold intermediate
      rw [hu]
      simp only [hr, if_true]
      exact ih h
    · cases h
    · cases h

/-- Outside RUN a host read shows the current state. -/
@[simp] theorem shownState_of_not_inRun {s : State} (moment : Nat) (h : s.phase.inRun = false) : shownState moment s = s := by
  simp [shownState, h]

/-- In RUN a host read shows an intermediate state of the running decode. -/
@[simp] theorem shownState_of_inRun {s : State} (moment : Nat) (h : s.phase.inRun = true) :
    shownState moment s = intermediate moment (start s.inLen s.targetLen s) := by
  simp [shownState, h]

/-- Every instruction ends in a next state: the errors it raises are taken. -/
theorem exec_next (i : Instr) (s : State) : ∃ t, exec i s = .next t := by cases i <;> exact ⟨_, rfl⟩

end Sys2Proof.Machine
end

