-- ==== Sys2Proof/Tests/Slice0.lean ====
section
/-! SUPPORT. The model's own tests: words written out from the spec's encodings, ill-formed terms that the checks refuse, single
steps whose results are the spec's own numbers (95_test_vectors.md), and, for every obligation with hypotheses, a state that meets
them. -/

namespace Sys2Proof.Tests

open Sys2Proof.Machine

/-! ### Helpers -/

/-- A value read off the next state of an outcome. -/
def after {A : Type} (o : Host.Outcome State Fault Refusal) (f : State → A) : Option A :=
  match o with
  | .next t => some (f t)
  | .fault _ => none
  | .refused _ => none

/-- A decode of a stream for `n` bytes that has just begun, put in a phase. -/
def running (p : Phase) (bytes : List Byte) (n : Nat) : State :=
  { State.reset with
    phase := p
    inLen := bytes.length
    targetLen := n
    cs := placeBytes [] 0 bytes }

/-- Vector S2, `01 41 20 01` for `n` bytes, after CTL, FLAG, LIT and a second FLAG (95_test_vectors.md sections 1 and 5). -/
def s2 (p : Phase) (n : Nat) : State :=
  { running p [0x01, 0x41, 0x20, 0x01] n with
    control := 0x01
    mask := 4
    inPos := 2
    outCount := 1
    pos := 2
    win := [(1, 0x41)]
    out := [(0, 0x41)] }

/-- Vector S2 at the beginning of its copy of four bytes. -/
def s2Copy : State :=
  { s2 .copy 5 with
    inPos := 4
    b0 := 0x20
    b1 := 0x01
    msrc := 1
    cnt := 4 }

/-- Vector S1's state before the completion test, cut to one literal: `FF 41` for one byte. -/
def full (p : Phase) : State :=
  { running p [0xFF, 0x41] 1 with
    control := 0xFF
    mask := 2
    inPos := 2
    outCount := 1
    pos := 2
    win := [(1, 0x41)]
    out := [(0, 0x41)] }

/-- A decode that ended in an error at the end of its stream. -/
def failed : State := { s2 .error 5 with inPos := 4, err := some .malformedInput }

/-- An output of 4096 zeros. -/
def zeros : Memory := (List.range' 0 4096).map fun a => (a, 0x00)

/-- A copy at the full distance of 4096 (42_match.md R108): `pos = msrc` after 4096 bytes. -/
def fullDistance : State :=
  { running .copy [0x00] 4097 with
    outCount := 4096
    pos := 1
    msrc := 1
    cnt := 1
    out := zeros }

/-! ### Decoding: the words, bit by bit -/

/-- 30_encoding.md R61: flags 1 1 1 0 1, bit 0 first (program P1's control byte). -/
theorem test_decode_ctl : decodeTableWord 8 0b00010111 = some (.ctl 0x17) := by decide

/-- R63, R67: the flag bit 1, then the byte. -/
theorem test_decode_lit : decodeTableWord 16 0b1_01000100 = some (.lit 0x44) := by decide

/-- R64, R67: the flag bit 0, `LLLL = 0010`, `HHHH = 1111`, `PPPPPPPP = 11111110` (vector W4's pair, pos=4094, len=3). -/
theorem test_decode_match : decodeTableWord 24 0b0_0010_1111_11111110 = some (.matchRef 2 4094) := by decide

/-- R60: the role, not the byte, says what a byte is. -/
theorem test_decode_by_role :
    decode .control [0x41] = .ok (.ctl 0x41, []) ∧ decode .literal [0x41] = .ok (.lit 0x41, []) ∧
      decode .matchPair [0x41] = .error .streamEnded := by decide

/-- R74: the listing of program P1. -/
theorem test_assemble_P1 :
    assemble [.ctl 0x17, .lit 0x41, .lit 0x42, .lit 0x43, .matchAt 1 5, .lit 0x44] =
      [0x17, 0x41, 0x42, 0x43, 0x40, 0x01, 0x44] := by decide

/-- R74: the listing of program P2, nine tokens in two groups. -/
theorem test_assemble_P2 :
    assemble [.lit 0x30, .lit 0x31, .lit 0x32, .lit 0x33, .lit 0x34, .lit 0x35, .lit 0x36, .lit 0x37, .matchAt 1 7] =
      [0xFF, 0x30, 0x31, 0x32, 0x33, 0x34, 0x35, 0x36, 0x37, 0x00, 0x60, 0x01] := by decide

/-! ### Well-formedness: what the checks refuse -/

theorem test_refuses_lit_above_byte : (AsmLine.lit 256).inRange = false := by decide

theorem test_refuses_ctl_above_byte : (AsmLine.ctl 256).inRange = false := by decide

theorem test_refuses_position_above_window : (AsmLine.matchAt 4096 1).inRange = false := by decide

theorem test_refuses_length_zero : (AsmLine.matchAt 0 0).inRange = false := by decide

theorem test_refuses_length_above_sixteen : (AsmLine.matchAt 0 17).inRange = false := by decide

/-- A `CTL` line that is not what the grouping rule gives. -/
theorem test_refuses_wrong_control : listingWellFormed [.ctl 0x03, .lit 0x41, .matchAt 1 3] = false := by decide

/-- A `CTL` line inside a group. -/
theorem test_refuses_control_inside_group : listingWellFormed [.lit 0x41, .ctl 0x01, .lit 0x42] = false := by decide

/-- A `CTL` line with no group after it. -/
theorem test_refuses_control_without_group : listingWellFormed [.ctl 0x00] = false := by decide

theorem test_accepts_S2 : listingWellFormed [.ctl 0x01, .lit 0x41, .matchAt 1 3] = true := by decide

/-! ### Operands and flags, on the numbers of 95_test_vectors.md -/

/-- M4 to M7, M9a, M9b: the clamp on both sides of `match_length = R`. -/
theorem test_copyCount :
    copyCount 2 5 1 = 4 ∧ copyCount 2 4 1 = 3 ∧ copyCount 2 3 1 = 2 ∧ copyCount 2 2 1 = 1 ∧
      copyCount 15 18 1 = 17 ∧ copyCount 15 17 1 = 16 := by decide

/-- B5a to B5d, B3: the distances. -/
theorem test_distance :
    distance 4 3 = 1 ∧ distance 4 4 = 4096 ∧ distance 4 5 = 4095 ∧ distance 4 4095 = 5 ∧ distance 2 0 = 2 := by decide

/-- B4, W2a, W3, W3b: the verdicts at `d = out_count` and one beyond. -/
theorem test_backRefInvalid :
    backRefInvalid 2 2 1 = true ∧ backRefInvalid 0 0 4095 = true ∧ backRefInvalid 1 1 4096 = false ∧
      backRefInvalid 0 1 4095 = false := by decide

/-! ### One step of each instruction -/

/-- P1, step 1. -/
theorem test_ctl_loads :
    after (exec (.ctl 0x17) (running .query [0x17, 0x41] 10)) (fun t => (t.control, t.mask, t.inPos, t.phase)) =
      some (0x17, 1, 1, .query) := by decide

/-- F4: the stream ends where a control byte is needed; `mask` stays 256. -/
theorem test_ctl_at_end :
    after (exec (.ctl 0x17) (running .query [] 1)) (fun t => (t.err, t.phase, t.mask, t.inPos)) =
      some (some .malformedInput, .error, 256, 0) := by decide

/-- P1, step 3: byte 0x41 to `OUT[0]` and to slot 1. -/
theorem test_lit_emits :
    after (exec (.lit 0x41) { running .lit [0x17, 0x41, 0x42] 10 with inPos := 1, mask := 2 })
        (fun t => (t.out, t.win, t.outCount, t.pos, t.phase)) =
      some ([(0, 0x41)], [(1, 0x41)], 1, 2, .query) := by decide

/-- L4: the literal byte is missing. -/
theorem test_lit_at_end :
    after (exec (.lit 0x41) { full .lit with targetLen := 2 }) (fun t => (t.err, t.outCount, t.inPos, t.pos)) =
      some (some .malformedInput, 1, 2, 2) := by decide

/-- S2: the overlapping match. -/
theorem test_match_S2 :
    after (exec (.matchRef 2 1) (s2 .mB0 5)) (fun t => decide (
        t.out = [(0, 0x41), (1, 0x41), (2, 0x41), (3, 0x41), (4, 0x41)] ∧ t.pos = 6 ∧ t.inPos = 4 ∧ t.msrc = 5 ∧ t.cnt = 0 ∧
        t.phase = .query)) = some true := by decide

/-- B4: `match_position = pos`, nothing emitted. -/
theorem test_match_B4 :
    after (exec (.matchRef 0 2) (s2 .mB0 3)) (fun t => decide (
        t.err = some .invalidBackRef ∧ t.outCount = 1 ∧ t.pos = 2 ∧ t.inPos = 4 ∧ t.out = [(0, 0x41)])) = some true := by
  decide

/-! ### The sequencer's other steps, and the host's -/

/-- F1: bit 0 of `80` is 0, so the first token is a MATCH. -/
theorem test_flag_F1 :
    after (seqStep { running .query [0x80, 0x41, 0x42] 1 with inPos := 1, control := 0x80, mask := 1 })
      (fun t => (t.phase, t.mask)) = some (.mB0, 2) := by decide

/-- F3: after the eighth flag `mask` is 256 and nothing is loaded. -/
theorem test_flag_eighth :
    after (seqStep { running .query [0xFF] 8 with inPos := 1, control := 0xFF, mask := 128 })
      (fun t => (t.phase, t.mask, t.inPos)) = some (.lit, 256, 1) := by decide

/-- Z1: with nothing wanted the decode is done before any read. -/
theorem test_zero_length : after (step (running .query [] 0)) (fun t => (t.phase, t.inPos, t.mask)) = some (.done, 0, 256) := by
  decide

/-- P1, step 11, on S2's numbers: mp 1, cc 4. -/
theorem test_match_check :
    after (seqStep { s2 .mChk 5 with inPos := 4, b0 := 0x20, b1 := 0x01 }) (fun t => (t.msrc, t.cnt, t.phase, t.outCount)) =
      some (1, 4, .copy, 1) := by decide

/-- One copy step of S2 reads slot 1 and writes slot 2. -/
theorem test_match_copy :
    after (seqStep s2Copy) (fun t => (t.out, t.win, t.msrc, t.cnt, t.phase)) =
      some ([(0, 0x41), (1, 0x41)], [(1, 0x41), (2, 0x41)], 2, 3, .copy) := by decide

/-- 43_decode_sequence.md R110: START from the staging registers, in DONE. -/
theorem test_start :
    after (hostStep (.writeReg 0 1) { full .done with inLenReg := 7, targetLenReg := 10 })
        (fun t => decide (t.phase = .query ∧ t.inLen = 7 ∧ t.targetLen = 10 ∧ t.inPos = 0 ∧ t.outCount = 0 ∧ t.mask = 256 ∧
          t.pos = 1 ∧ t.win = [])) = some true := by decide

/-- 10_state.md R34: STATUS of P1's end state (STATE = 2, ERR = 0) and of P4's (STATE = 3, ERR = 2). -/
theorem test_status :
    statusWord (full .done) = 2 ∧ statusWord { full .error with err := some .invalidBackRef } = 11 := by decide

/-- 10_state.md R33, in an engine with `LENW` = 8 and `INW` = 4: the bits above a register's width are ignored. -/
theorem test_staging_keeps_its_width :
    after (hostStep (.writeReg 2 0x1FE) (State.resetAt { lenw := 8, inw := 4 })) (fun t => (t.targetLenReg, t.inLenReg)) =
      some (0xFE, 0) ∧
    after (hostStep (.writeReg 3 0x1FE) (State.resetAt { lenw := 8, inw := 4 })) (fun t => (t.targetLenReg, t.inLenReg)) =
      some (0, 0xE) := by decide

/-- L3a: the literal-only stream of ten literals. -/
theorem test_literalStream_L3a :
    literalStream 0 [0x41, 0x42, 0x43, 0x44, 0x45, 0x46, 0x47, 0x48, 0x49, 0x4A] =
      [0xFF, 0x41, 0x42, 0x43, 0x44, 0x45, 0x46, 0x47, 0x48, 0xFF, 0x49, 0x4A] := by decide

/-- A placed word is what the next step runs: the three rows, after reset. -/
theorem test_placed_words_run :
    after (step (State.reset.withFetchWord 8 0x17)) (fun t => (t.control, t.mask)) = some (0x17, 1) ∧
    after (step (State.reset.withFetchWord 16 0x144)) (fun t => (t.out, t.outCount)) = some ([(0, 0x44)], 1) ∧
    after (step (State.reset.withFetchWord 24 0x02001)) (fun t => (t.b0, t.b1, t.err)) =
      some (0x20, 0x01, some .invalidBackRef) := by decide

/-! ### Witnesses: the invariants hold of the states used -/

theorem inv_reset : EngineInv State.reset := by constructor <;> decide

theorem inv_begun : EngineInv (running .query [0x01, 0x41, 0x20, 0x01] 5) := by constructor <;> decide

theorem inv_lit : EngineInv (s2 .lit 5) := by constructor <;> decide

theorem inv_mB0 : EngineInv (s2 .mB0 5) := by constructor <;> decide

theorem inv_mB1 : EngineInv { s2 .mB1 5 with inPos := 3, b0 := 0x20 } := by constructor <;> decide

theorem inv_mChk : EngineInv { s2 .mChk 5 with inPos := 4, b0 := 0x20, b1 := 0x01 } := by constructor <;> decide

theorem inv_mChk_invalid : EngineInv { s2 .mChk 5 with inPos := 4, b0 := 0x00, b1 := 0x02 } := by constructor <;> decide

theorem inv_copy : EngineInv s2Copy := by constructor <;> decide

theorem inv_full : EngineInv (full .query) := by constructor <;> decide

theorem inv_done : EngineInv (full .done) := by constructor <;> decide

theorem inv_failed : EngineInv failed := by constructor <;> decide

/-- A memory that lists a run of consecutive addresses, all with one byte. -/
theorem find_run (b : Byte) (n k a : Nat) :
    Memory.find ((List.range' k n).map fun x => (x, b)) a = if k ≤ a ∧ a < k + n then some b else none := by
  induction n generalizing k with
  | zero => simp
  | succ n ih =>
    simp only [List.range'_succ, List.map_cons, Memory.find, ih]
    split_ifs <;> first | rfl | omega

theorem rises_run (b : Byte) (n k : Nat) : Memory.risesFrom k ((List.range' k n).map fun x => (x, b)) = true := by
  induction n generalizing k with
  | zero => rfl
  | succ n ih => simp [List.range'_succ, Memory.risesFrom, ih]

theorem fullDistance_read (a : Nat) : Memory.read .out fullDistance.out a = if a < 4096 then some 0x00 else none := by
  rw [Memory.read_out]
  have h : fullDistance.out = zeros := rfl
  rw [h, zeros, find_run]
  simp

theorem inv_fullDistance : EngineInv fullDistance where
  csWf := by decide
  winWf := by decide
  outWf := by
    have h : fullDistance.out = zeros := rfl
    simp [Memory.wf, h, zeros, rises_run, unlisted]
  winSlots := by decide
  errIff := by decide
  maskValue := by decide
  posOut := by decide
  inBound := by decide
  outBound := by decide
  wanted := by decide
  copyBudget := by decide
  cntRange := by decide
  copySource := by decide
  doneFull := by decide

/-- The Window of a state whose one output byte stands in slot 1. -/
theorem windowInv_one {s : State} (hw : s.win = [(1, 0x41)]) (ho : s.out = [(0, 0x41)]) (hc : s.outCount = 1) :
    WindowInv s where
  outListed _ a := by
    rw [ho, hc, Memory.read_out]
    cases a <;> simp [Memory.find]
  mirror _ j hj _ := by
    rw [hc] at hj
    obtain rfl : j = 0 := Nat.lt_one_iff.1 hj
    simp [winSlot, hw, ho, Memory.read, Memory.find]
  fill _ slot h := by
    have hs : slot.toNat ≠ 1 := by
      intro e
      simp [written, hc, e] at h
    simp [winSlot, hw, Memory.read, Memory.find, Ne.symm hs, unlisted]

/-- After 4096 literal zeros every slot holds a zero. -/
theorem windowInv_fullDistance : WindowInv fullDistance where
  outListed _ a := by
    have hc : fullDistance.outCount = 4096 := rfl
    rw [fullDistance_read, hc]
    split <;> simp [*]
  mirror _ j hj _ := by
    have hc : fullDistance.outCount = 4096 := rfl
    rw [hc] at hj
    rw [fullDistance_read, if_pos hj]
    rfl
  fill _ _ _ := rfl

theorem windowInv_copy : WindowInv s2Copy := windowInv_one rfl rfl rfl

theorem windowInv_done : WindowInv (full .done) := windowInv_one rfl rfl rfl

theorem outFromStream_copy : OutFromStream s2Copy := by
  intro a b h
  have h : Memory.find [(0, 0x41)] a = some b := by rw [← Memory.read_out]; exact h
  simp only [Memory.find] at h
  split at h
  · cases h; exact ⟨1, by decide, by decide⟩
  · cases h

/-! ### Witnesses: one for each obligation with hypotheses, one for each of its clauses -/

theorem witness_DecodeEncodeAgree :
    (Instr.matchRef 15 4095).wellFormed = true ∧ decode .matchPair [0xFF, 0xFF, 0x00] = .ok (.matchRef 15 4095, [0x00]) ∧
    (Instr.ctl 0xFF).wellFormed = true ∧ decode .control [0xFF] = .ok (.ctl 0xFF, []) ∧
    (Instr.lit 0x00).wellFormed = true ∧ decode .literal [0x00] = .ok (.lit 0x00, []) := by decide

theorem witness_MatchFieldsAreTheRules :
    ∃ s : State, EngineInv s ∧ s.phase = .mChk ∧ backRefInvalid s.pos (matchPositionOf s.b0 s.b1) s.outCount = false :=
  ⟨_, inv_mChk, rfl, by decide⟩

theorem witness_AssembledMatchBytes :
    (AsmLine.matchAt 0 1).inRange = true ∧ (AsmLine.matchAt 4095 16).inRange = true := by decide

theorem witness_ControlByteMarksLiterals :
    ([] : List Instr).length ≤ 8 ∧ (List.replicate 8 (Instr.lit 0x41)).length ≤ 8 ∧ (0 : Nat) < 8 ∧ (7 : Nat) < 8 := by decide

/-- The two ends of the relation between `pos` and `out_count`, and its wrap at slot 0 (vectors W2a, W2b). -/
theorem witness_BackReferenceValidity :
    State.reset.pos.toNat = (1 + State.reset.outCount) % 4096 ∧
    (0 : Slot).toNat = (1 + 4095) % 4096 ∧
    fullDistance.pos.toNat = (1 + fullDistance.outCount) % 4096 := by decide

/-- Both branches, on both sides of `match_length = R` (M4, M5). -/
theorem witness_CopyCountIsMinimum :
    (1 : Nat) < 5 ∧ (matchLength 2).toNat < 5 - 1 ∧
    (1 : Nat) < 4 ∧ 4 - 1 ≤ (matchLength 2).toNat := by decide

theorem witness_ControlLoads :
    (running .query [0x17] 1).inPos < (running .query [0x17] 1).inLen := by decide

theorem witness_LiteralEmitsAndWrites : (s2 .lit 5).inPos < (s2 .lit 5).inLen ∧ (s2 .lit 5).outCount < (s2 .lit 5).targetLen := by
  decide

theorem witness_LiteralReadsBack :
    ∃ s : State, EngineInv s ∧ s.inPos < s.inLen ∧ s.outCount < s.targetLen := ⟨s2 .lit 5, inv_lit, by decide, by decide⟩

theorem witness_MatchCompletes :
    (s2 .mB0 5).inPos + 2 ≤ (s2 .mB0 5).inLen ∧ (s2 .mB0 5).outCount < (s2 .mB0 5).targetLen ∧
      backRefInvalid (s2 .mB0 5).pos 1 (s2 .mB0 5).outCount = false := by decide

theorem witness_MatchRepeatsItsSource :
    ∃ (s t : State) (l : BitVec 4) (p : Slot), EngineInv s ∧ s.inPos + 2 ≤ s.inLen ∧ s.outCount < s.targetLen ∧
      backRefInvalid s.pos p s.outCount = false ∧ exec (.matchRef l p) s = .next t ∧
      3 < (copyCount l s.targetLen s.outCount).toNat :=
  ⟨s2 .mB0 5, _, 2, 1, inv_mB0, by decide, by decide, by decide, rfl, by decide⟩

theorem witness_InvalidMatchTakesError :
    (s2 .mB0 5).inPos + 2 ≤ (s2 .mB0 5).inLen ∧
      backRefInvalid (s2 .mB0 5).pos 2 (s2 .mB0 5).outCount = true := by decide

theorem witness_StreamEndTakesMalformedInput : (full .lit).inLen ≤ (full .lit).inPos := by decide

theorem witness_CutPairTakesMalformedInput :
    { s2 .mB0 5 with inLen := 3 }.inPos + 1 = { s2 .mB0 5 with inLen := 3 }.inLen := by decide

theorem witness_ControlFrame : ∃ t, exec (.ctl 0x17) (running .query [0x17] 1) = .next t := ⟨_, rfl⟩

theorem witness_LiteralFrame : ∃ s t, EngineInv s ∧ exec (.lit 0x41) s = .next t := ⟨s2 .lit 5, _, inv_lit, rfl⟩

theorem witness_MatchFrame :
    ∃ s t, EngineInv s ∧ s.outCount < s.targetLen ∧ exec (.matchRef 2 1) s = .next t ∧ t.phase = .query :=
  ⟨s2 .mB0 5, _, inv_mB0, by decide, rfl, by decide⟩

theorem witness_WinWriteWritesOneSlot : ∃ s : State, EngineInv s := ⟨s2Copy, inv_copy⟩

theorem witness_CopyKeepsDistance :
    s2Copy.outCount < s2Copy.targetLen ∧ backRefInvalid s2Copy.pos s2Copy.msrc s2Copy.outCount = false := by decide

theorem witness_CopyAtFullDistanceKeepsWindow :
    ∃ s : State, EngineInv s ∧ WindowInv s ∧ s.phase = .copy ∧ s.msrc = s.pos :=
  ⟨fullDistance, inv_fullDistance, windowInv_fullDistance, by decide, by decide⟩

theorem witness_WinReadIsWinSlot :
    (∃ (s : State) (d : Nat), EngineInv s ∧ WindowInv s ∧ s.phase ≠ .idle ∧ 1 ≤ d ∧ d ≤ 4096 ∧ d ≤ s.outCount ∧ d = 1) ∧
    (∃ (s : State) (d : Nat), EngineInv s ∧ WindowInv s ∧ s.phase ≠ .idle ∧ 1 ≤ d ∧ d ≤ 4096 ∧ d ≤ s.outCount ∧ d = 4096) :=
  ⟨⟨s2Copy, 1, inv_copy, windowInv_copy, by decide, by decide, by decide, by decide, rfl⟩,
    ⟨fullDistance, 4096, inv_fullDistance, windowInv_fullDistance, by decide, by decide, by decide, by decide, rfl⟩⟩

theorem witness_StepRunsDecodedInstruction :
    (s2 .mB0 5).schedule = [] ∧ fetchRole (s2 .mB0 5) = some .matchPair ∧
      decode .matchPair (streamBytes (s2 .mB0 5) 2 (s2 .mB0 5).inPos) = .ok (.matchRef 2 1, []) := by decide

theorem witness_ScheduleOrdersMoves :
    { s2 .mB0 5 with schedule := [.sequencer] }.schedule = .sequencer :: [] ∧
    { s2 .mB0 5 with schedule := [.host .hardReset] }.schedule = .host .hardReset :: [] ∧
    State.reset.schedule = [] ∧ State.reset.phase.inRun = false := by decide

theorem witness_PlacedWordRunsNext :
    Memory.wf .cs (s2 .query 5).cs = true ∧ decodeTableWord 24 0x02001 = some (.matchRef 2 1) := by decide

theorem witness_FlagQueryTestsLowBitFirst :
    let s := { running .query [0x80] 1 with inPos := 1, control := 0x80, mask := 1 }
    let t := { s with mask := 128 }
    s.phase = .query ∧ s.outCount ≠ s.targetLen ∧ s.mask.toNat = 2 ^ 0 ∧ t.mask.toNat = 2 ^ 7 := by decide

theorem witness_QueryTestsCompletionFirst :
    ((full .query).phase = .query ∧ (full .query).outCount = (full .query).targetLen) ∧
    ((running .query [0x17] 1).outCount ≠ (running .query [0x17] 1).targetLen ∧ (running .query [0x17] 1).mask = 256) ∧
    ((s2 .query 5).outCount ≠ (s2 .query 5).targetLen ∧ (s2 .query 5).mask ≠ 256) := by decide

/-- One state for each phase of RUN. -/
theorem witness_PhaseTransitions :
    (∃ s t, EngineInv s ∧ s.phase = .query ∧ seqStep s = .next t) ∧
    (∃ s t, EngineInv s ∧ s.phase = .lit ∧ seqStep s = .next t) ∧
    (∃ s t, EngineInv s ∧ s.phase = .mB0 ∧ seqStep s = .next t) ∧
    (∃ s t, EngineInv s ∧ s.phase = .mB1 ∧ seqStep s = .next t) ∧
    (∃ s t, EngineInv s ∧ s.phase = .mChk ∧ seqStep s = .next t) ∧
    (∃ s t, EngineInv s ∧ s.phase = .copy ∧ seqStep s = .next t) :=
  ⟨⟨_, _, inv_begun, rfl, rfl⟩, ⟨_, _, inv_lit, rfl, rfl⟩, ⟨_, _, inv_mB0, rfl, rfl⟩, ⟨_, _, inv_mB1, rfl, rfl⟩,
    ⟨_, _, inv_mChk, rfl, rfl⟩, ⟨_, _, inv_copy, rfl, rfl⟩⟩

theorem witness_SequencerStepsExactlyInRun :
    (StreamPlaced (s2 .mB0 5) (s2 .mB0 5).inLen ∧ (s2 .mB0 5).phase.inRun = true) ∧
    (StreamPlaced (full .done) (full .done).inLen ∧ (full .done).phase.inRun = false) := by
  unfold StreamPlaced; decide

theorem witness_ErrorEntryWritesErrAndPhase :
    ∃ s t, seqStep s = .next t ∧ t.phase = .error :=
  ⟨{ s2 .mChk 5 with inPos := 4, b0 := 0x00, b1 := 0x02 }, _, rfl, by decide⟩

theorem witness_ErrorsAriseOnlyAtTheirPlaces :
    (∃ s t, EngineInv s ∧ seqStep s = .next t ∧ t.err = some .malformedInput) ∧
    (∃ s t, EngineInv s ∧ seqStep s = .next t ∧ t.err = some .invalidBackRef) :=
  ⟨⟨running .query [] 1, _, by constructor <;> decide, rfl, by decide⟩, ⟨_, _, inv_mChk_invalid, rfl, by decide⟩⟩

theorem witness_CursorOnlyAdvances : ∃ s t, EngineInv s ∧ seqStep s = .next t ∧ t.inPos ≠ s.inPos :=
  ⟨s2 .mB0 5, _, inv_mB0, rfl, by decide⟩

theorem witness_EngineNeverWritesStream : ∃ s t, s.schedule = [] ∧ step s = .next t := ⟨s2 .mB0 5, _, rfl, rfl⟩

/-- Both ways out of ERROR, and a way out of DONE and of IDLE. -/
theorem witness_PhasesOutsideRunAreLeftOnlyByHost :
    (∃ s t, s.phase = .error ∧ step s = .next t ∧ t.phase = .query) ∧
    (∃ s t, s.phase = .error ∧ step s = .next t ∧ t.phase = .idle) ∧
    (∃ s t, s.phase = .done ∧ step s = .next t ∧ t.phase = .idle) ∧
    (∃ s t, s.phase = .idle ∧ step s = .next t ∧ t.phase = .query) :=
  ⟨⟨{ failed with schedule := [.host (.writeReg 0 1)] }, _, rfl, rfl, by decide⟩,
    ⟨{ failed with schedule := [.host .hardReset] }, _, rfl, rfl, by decide⟩,
    ⟨{ full .done with schedule := [.host .hardReset] }, _, rfl, rfl, by decide⟩,
    ⟨{ State.reset with schedule := [.host (.writeReg 0 1)] }, _, rfl, rfl, by decide⟩⟩

theorem witness_StartInitialisesDecode :
    (1 : Nat).testBit 0 = true ∧ State.reset.phase ∈ [Phase.idle, .done, .error] ∧
      failed.phase ∈ [Phase.idle, .done, .error] ∧ (full .done).phase ∈ [Phase.idle, .done, .error] ∧
      { full .done with err := some .malformedInput, phase := .error }.cs = (full .done).cs ∧
      s2Copy.phase ∈ [Phase.query, .lit, .mB0, .mB1, .mChk, .copy] := by decide

theorem witness_HostRegisterFile :
    (1 : Nat).testBit 0 = true ∧ State.reset.phase.inRun = false ∧ (2 : Nat).testBit 0 = false ∧
    WidthInv (State.resetAt { lenw := 40, inw := 8 }) ∧ hostRead 0 2 (State.resetAt { lenw := 40, inw := 8 }) = .ok 0 ∧
    EngineInv (State.resetAt { lenw := 40, inw := 8 }) :=
  ⟨by decide, by decide, by decide, by constructor <;> decide, rfl, by constructor <;> decide⟩

/-- S2 again: an earlier moment of the decode is shown as well as the current one, seven steps after START. -/
theorem witness_CountersInRunShowSomeMoment :
    s2Copy.phase.inRun = true ∧ EngineInv s2Copy ∧
    (∃ t, seqSteps 3 (start s2Copy.inLen s2Copy.targetLen s2Copy) = .next t ∧ t.phase.inRun = true ∧ t.outCount = 1 ∧
      t.inPos = 2) ∧
    ∃ s, seqSteps 8 (start 4 5 s2Copy) = .next s ∧ s.phase.inRun = true ∧ s.outCount = 2 ∧ s.inPos = 4 :=
  ⟨rfl, inv_copy, ⟨_, rfl, rfl, rfl, rfl⟩, ⟨_, rfl, rfl, rfl, rfl⟩⟩

/-- S2: reads of the same state that show moments 0, 3 and 6 of its decode. -/
theorem test_counters_in_run :
    hostRead 0 4 s2Copy = .ok 0 ∧ hostRead 3 4 s2Copy = .ok 1 ∧ hostRead 3 5 s2Copy = .ok 2 ∧ hostRead 6 5 s2Copy = .ok 4 :=
  ⟨rfl, rfl, rfl, rfl⟩

theorem witness_StartInRunIsIgnored :
    s2Copy.phase ∈ [Phase.query, .lit, .mB0, .mB1, .mChk, .copy] ∧
      ∃ t, hostStep .hardReset s2Copy = .next t ∧ t.phase ≠ s2Copy.phase := ⟨by decide, _, rfl, by decide⟩

/-- One state for each value of STATE, and for each of ERR. -/
theorem witness_StatusFields :
    EngineInv State.reset ∧ EngineInv s2Copy ∧ EngineInv (full .done) ∧ EngineInv failed ∧
      EngineInv { s2 .error 5 with inPos := 4, err := some .invalidBackRef } :=
  ⟨inv_reset, inv_copy, inv_done, inv_failed, by constructor <;> decide⟩

/-- The last address of `INW` bits and the first beyond. -/
theorem witness_HostAccessesOutsideModelRefused :
    s2Copy.phase.inRun = true ∧ State.reset.phase.inRun = false ∧ 2 ^ State.reset.params.inw ≤ 2 ^ 32 ∧
      2 ^ 32 - 1 < 2 ^ State.reset.params.inw ∧ 5 < 6 := by decide

theorem witness_OutputHiddenOutsideDone :
    s2Copy.phase ≠ .done ∧ (full .done).targetLen ≤ 1 ∧ failed.phase = .error := by decide

theorem witness_EngineInvariantKept :
    (∃ s t, EngineInv s ∧ s.schedule = [] ∧ step s = .next t) ∧
    (∃ s t, EngineInv s ∧ s.schedule ≠ [] ∧ step s = .next t) :=
  ⟨⟨_, _, inv_copy, rfl, rfl⟩,
    ⟨{ s2Copy with schedule := [.sequencer] }, _, by constructor <;> decide, by decide, rfl⟩⟩

/-- At the default widths, and in an engine whose target length is the largest its width holds. -/
theorem witness_RegistersKeepTheirWidths :
    (∃ s t, EngineInv s ∧ WidthInv s ∧ step s = .next t ∧ s.params = {}) ∧
    (∃ s t, EngineInv s ∧ WidthInv s ∧ step s = .next t ∧ s.params = { lenw := 3, inw := 3 }) :=
  ⟨⟨s2Copy, _, inv_copy, by constructor <;> decide, rfl, rfl⟩,
    ⟨{ s2 .mB0 7 with params := { lenw := 3, inw := 3 } }, _, by constructor <;> decide, by constructor <;> decide, rfl, rfl⟩⟩

theorem witness_WindowMirrorsOutput : ∃ s t, EngineInv s ∧ WindowInv s ∧ step s = .next t ∧ t.outCount ≠ s.outCount :=
  ⟨_, _, inv_copy, windowInv_copy, rfl, by decide⟩

/-- The second clause: the second byte of S2, which its match brings. -/
theorem witness_OutputComesFromStream :
    (∃ s t, EngineInv s ∧ WindowInv s ∧ OutFromStream s ∧ s.schedule = [] ∧ step s = .next t ∧ t.outCount ≠ s.outCount) ∧
    ∃ s t, EngineInv s ∧ seqSteps 8 (start 4 5 s) = .next t ∧ Memory.read .out t.out 1 = some 0x41 :=
  ⟨⟨_, _, inv_copy, windowInv_copy, outFromStream_copy, rfl, rfl, by decide⟩, ⟨s2Copy, _, inv_copy, rfl, rfl⟩⟩

/-- A stale byte in a slot that this decode has not written. -/
theorem witness_UnwrittenSlotsNeverReachOutput :
    ∃ s t : State, s ≠ t ∧ EngineInv s ∧ EngineInv t ∧ s.schedule = [] ∧ SameWrittenSlots s t := by
  refine ⟨s2Copy, { s2Copy with win := [(1, 0x41), (2, 0x99)] }, by decide, inv_copy, by constructor <;> decide, rfl, rfl, ?_⟩
  intro slot h
  have e : slot.toNat = 1 := by
    have hc : s2Copy.outCount = 1 := rfl
    simp only [written, hc, Bool.or_eq_true, Bool.and_eq_true, decide_eq_true_eq] at h
    omega
  simp [winSlot, Memory.read, Memory.find, e, s2Copy, s2]

theorem witness_ResultHasExactLength : ∃ s : State, EngineInv s ∧ WindowInv s ∧ s.phase = .done ∧ s.targetLen ≠ 0 :=
  ⟨_, inv_done, windowInv_done, rfl, by decide⟩

theorem witness_ZeroLengthIsNoOp : State.reset.schedule = [] := rfl

/-- Both clauses, and both cases of the first: a valid pair, an invalid one, and no pair. -/
theorem witness_TokenStepIsPhaseSteps :
    (s2 .mB0 5).schedule = [] ∧ fetch (s2 .mB0 5) = some (.matchRef 2 1) ∧
      backRefInvalid (s2 .mB0 5).pos 1 (s2 .mB0 5).outCount = false ∧
    fetch (running .mB0 [0x20, 0x01] 5) = some (.matchRef 2 1) ∧ backRefInvalid 1 1 0 = true ∧
    fetch (s2 .lit 5) = some (.lit 0x20) := by decide

/-- Two states that differ, of the same decode: another byte beyond the stream, another `control` before its load. -/
theorem witness_DecodeDependsOnRequestOnly :
    ∃ s t : State, s ≠ t ∧ s.schedule = [] ∧ t.schedule = [] ∧ SameDecode s t ∧
      ∀ a : Nat, a < 1 → Memory.read .cs s.cs a = Memory.read .cs t.cs a :=
  ⟨{ running .query [0x01, 0x41] 5 with inLen := 1 }, { running .query [0x01, 0x42] 5 with inLen := 1, control := 0x55 },
    by decide, rfl, rfl, by constructor <;> decide, by decide⟩

theorem witness_DecodeEndsWithinBound :
    ∃ (s : State) (l : Nat), EngineInv s ∧ StreamPlaced s l ∧ l ≠ 0 :=
  ⟨full .done, 2, inv_done, by unfold StreamPlaced; decide, by decide⟩

/-- A stream that decodes, and one that faults after its CONTROL byte is read. -/
theorem witness_MachineComputesReference :
    (∃ (s : State) (bytes : List Byte) (l : Nat),
      EngineInv s ∧ s.schedule = [] ∧ bytes.length = l ∧ StreamIs s bytes ∧ bytes ≠ []) ∧
    (∃ v, refDecode [0xFF, 0x41] 1 = .ok v) ∧ ∃ e, refDecode [0xFF, 0x41] 2 = .error e ∧ 0 < e.final.inPos :=
  ⟨⟨full .done, [0xFF, 0x41], 2, inv_done, rfl, rfl, by unfold StreamIs; decide, by decide⟩, ⟨_, rfl⟩, ⟨_, rfl, by decide⟩⟩

/-- B8b: the final variables of a fault. -/
theorem test_reference_fault :
    ∃ e, refDecode [0x01, 0x41, 0xF0, 0x01, 0x00, 0x12] 30 = .error e ∧ e.kind = .malformedInput ∧
      (e.final.inPos, e.final.out.length, e.final.pos, e.final.mask, e.final.control) = (6, 20, 21, 16, 0x01) :=
  ⟨_, rfl, by decide, by decide⟩

/-- L5: two bytes of the stream that are not read. -/
theorem witness_TrailingBytesIgnored :
    ∃ v, refDecode [0x01, 0x41, 0x99, 0x98] 1 = .ok v ∧ v.out = [0x41] ∧ v.inPos = 2 := ⟨_, rfl, by decide, by decide⟩

/-- The upper bound is reached: a literal and a clamped match for two bytes (M7). -/
theorem witness_ConsumptionBounds :
    ∃ v, refDecode [0x01, 0x41, 0x20, 0x01] 2 = .ok v ∧ v.inPos = 2 + 1 + (2 + 7) / 8 ∧ (1 : Nat) ≤ 2 :=
  ⟨_, rfl, by decide, by decide⟩

end Sys2Proof.Tests
end

section
/-! SUPPORT. The two grains of a step agree: a fetched instruction run whole is a run of single steps of the phase machine
(42_match.md R106, 43_decode_sequence.md R115). An invariant of the machine is then one of `seqStep` and of `hostStep`. -/

namespace Sys2Proof.Machine

/-- A fetched instruction was decoded, in the role that the state gives, from the bytes at the cursor. -/
theorem fetch_decodes {s : State} {i : Instr} (h : fetch s = some i) :
    ∃ r rest, fetchRole s = some r ∧ decode r (streamBytes s 2 s.inPos) = .ok (i, rest) := by
  unfold fetch at h
  split at h
  · cases h
  · rename_i r hr
    split at h
    · rename_i j rest hd
      cases h
      exact ⟨r, rest, hr, hd⟩
    · cases h

/-- Bytes are read in the phase of their role; a CONTROL byte only with output wanted and a reload due (R60). -/
theorem phase_of_fetchRole {s : State} {r : Role} (h : fetchRole s = some r) :
    s.phase = rolePhase r ∧ (r = .control → s.outCount ≠ s.targetLen ∧ s.mask = Config.MASK_RELOAD) := by
  unfold fetchRole at h
  split at h
  case h_1 hp =>
    split_ifs at h with hc
    cases h
    exact ⟨hp, fun _ => hc⟩
  all_goals cases h
  all_goals exact ⟨‹_›, nofun⟩

/-- The first byte at an address is below `in_len` and was placed. -/
theorem read_of_streamBytes_cons {s : State} {n a : Nat} {b : Byte} {bs : List Byte} (h : streamBytes s (n + 1) a = b :: bs) :
    a < s.inLen ∧ Memory.read .cs s.cs a = some b := by
  unfold streamBytes at h
  split_ifs at h with ha
  split at h
  · rename_i v hv
    cases h
    exact ⟨ha, hv⟩
  · cases h

/-- A fetched instruction of one byte: that byte is at the cursor, in the role of the instruction (R61, R63). -/
theorem fetch_of_encode_single {s : State} {i : Instr} {b : Byte} (h : fetch s = some i) (he : encode i = [b]) :
    fetchRole s = some i.role ∧ s.inPos < s.inLen ∧ Memory.read .cs s.cs s.inPos = some b := by
  obtain ⟨r, rest, hr, hd⟩ := fetch_decodes h
  unfold decode at hd
  split at hd <;> cases hd <;> cases he
  all_goals exact ⟨hr, read_of_streamBytes_cons ‹_›⟩

/-- A fetched `CTL` is the phase machine's row for a reload. -/
theorem execCtl_eq_seqStep {s : State} {f : Byte} (h : fetch s = some (.ctl f)) : execCtl f s = seqStep s := by
  obtain ⟨hr, hl, hv⟩ := fetch_of_encode_single h rfl
  obtain ⟨hp, hc⟩ := phase_of_fetchRole hr
  obtain ⟨hw, hm⟩ := hc rfl
  simp only [Instr.role, rolePhase] at hp
  simp only [seqStep, hp, queryStep, if_neg hw, if_pos hm, streamRead_of_some hl hv, execCtl, consume_of_lt hl]

/-- A fetched `LIT` is the phase machine's row for a literal. -/
theorem execLit_eq_seqStep {s : State} {c : Byte} (h : fetch s = some (.lit c)) : execLit c s = seqStep s := by
  obtain ⟨hr, hl, hv⟩ := fetch_of_encode_single h rfl
  obtain ⟨hp, -⟩ := phase_of_fetchRole hr
  simp only [Instr.role, rolePhase] at hp
  simp only [seqStep, hp, streamRead_of_some hl hv, execLit, consume_of_lt hl]

/-- The state with a pair consumed and latched, its check due (R95, R96). -/
def pairLatched (b0 b1 : Byte) (s : State) : State := latchB1 b1 (advance (latchB0 b0 (advance s)))

/-- The first three steps of a `MATCH` whose pair is in the stream latch the pair and check it. -/
theorem seqSteps_pair {s : State} {v w : Byte} (hp : s.phase = .mB0) (hl : s.inPos + 2 ≤ s.inLen)
    (hv : Memory.read .cs s.cs s.inPos = some v) (hw : Memory.read .cs s.cs (s.inPos + 1) = some w) :
    seqSteps 3 s = .next (matchCheck (pairLatched v w s)) := by
  have first : seqStep s = .next (latchB0 v (advance s)) := by
    simp only [seqStep, hp, streamRead_of_some (show s.inPos < s.inLen by omega) hv]
  have second : seqStep (latchB0 v (advance s)) = .next (pairLatched v w s) :=
    streamRead_of_some (s := latchB0 v (advance s)) (show s.inPos + 1 < s.inLen by omega) hw
  simp only [seqSteps, first, second]
  rfl

/-- A `MATCH` whose pair is in the stream latches the pair, and then checks and copies. -/
theorem execMatchRef_eq_matchFinish {s : State} (v w : Byte) (hl : s.inPos + 2 ≤ s.inLen) :
    execMatchRef (rawLengthOf v) (matchPositionOf v w) s = .next (matchFinish (pairLatched v w s)) := by
  have h1 : s.inPos < s.inLen := by omega
  have h2 : (latchB0 v (advance s)).inPos < (latchB0 v (advance s)).inLen := show s.inPos + 1 < s.inLen by omega
  simp only [execMatchRef, matchByte0_of_pair, matchByte1_of_pair, consume_of_lt h1, consume_of_lt h2, pairLatched]

/-- A fetched `MATCH` is three steps of the phase machine, and then one for each byte copied unless the check faults. -/
theorem execMatchRef_eq_seqSteps {s : State} {l : BitVec 4} {p : Slot} (h : fetch s = some (.matchRef l p)) :
    execMatchRef l p s =
      seqSteps (if backRefInvalid s.pos p s.outCount then 3 else 3 + (copyCount l s.targetLen s.outCount).toNat) s := by
  obtain ⟨hp, hl, v, w, hv, hw, rfl, rfl⟩ := fetch_matchRef h
  have three := seqSteps_pair hp hl hv hw
  rw [execMatchRef_eq_matchFinish v w hl]
  unfold matchFinish
  rcases matchCheck_cases (pairLatched v w s) with ⟨hi, e⟩ | ⟨hi, e⟩
  all_goals change backRefInvalid s.pos (matchPositionOf v w) s.outCount = _ at hi
  · rw [if_pos hi, three, e]
    rfl
  · rw [if_neg (Bool.eq_false_iff.1 hi), seqSteps_add three, e]
    exact (seqSteps_copy _ _ rfl rfl).symm

/-- A step of the engine alone is a run of steps of the phase machine. -/
theorem step_alone_eq_seqSteps {s : State} (hs : s.schedule = []) : ∃ n, step s = seqSteps n s := by
  have one : seqSteps 1 s = seqStep s := by
    unfold seqSteps
    cases seqStep s <;> rfl
  cases hf : fetch s with
  | none => exact ⟨1, by simp only [step, hs, hf, one]⟩
  | some i =>
    have run : step s = exec i s := by simp only [step, hs, hf]
    cases i with
    | ctl f => exact ⟨1, by rw [run, one]; exact execCtl_eq_seqStep hf⟩
    | lit c => exact ⟨1, by rw [run, one]; exact execLit_eq_seqStep hf⟩
    | matchRef l p => exact ⟨_, by rw [run]; exact execMatchRef_eq_seqSteps hf⟩

/-- The next states of the machine: a run of the sequencer alone, or the scheduled move of one agent. -/
theorem step_cases {s t : State} (h : step s = .next t) :
    (s.schedule = [] ∧ ∃ n, seqSteps n s = .next t) ∨
    (∃ rest, s.schedule = .sequencer :: rest ∧ seqStep { s with schedule := rest } = .next t) ∨
    (∃ a rest, s.schedule = .host a :: rest ∧ hostStep a { s with schedule := rest } = .next t) := by
  cases hs : s.schedule with
  | nil =>
    obtain ⟨n, e⟩ := step_alone_eq_seqSteps hs
    exact .inl ⟨rfl, n, e ▸ h⟩
  | cons m rest =>
    simp only [step, hs] at h
    cases m with
    | sequencer => exact .inr (.inl ⟨rest, rfl, h⟩)
    | host a => exact .inr (.inr ⟨a, rest, rfl, h⟩)

end Sys2Proof.Machine
end

section
/-! SUPPORT. The counters stay within the lengths, and therefore within the widths of their registers (00_scope.md R5;
10_state.md R21 to R25, R33). -/

namespace Sys2Proof.Machine

/-- The part of `EngineInv` that bounds the counters by the lengths; alone it is kept by every step of the phase machine. -/
structure CountersBounded (s : State) : Prop where
  inBound : s.phase ≠ .idle → s.inPos ≤ s.inLen
  outBound : s.phase ≠ .idle → s.outCount ≤ s.targetLen
  wanted : s.phase ∈ [Phase.lit, .mB0, .mB1, .mChk, .copy] → s.outCount < s.targetLen
  copyBudget : s.phase = .copy → 1 ≤ s.cnt.toNat ∧ s.cnt.toNat ≤ s.targetLen - s.outCount

theorem EngineInv.countersBounded {s : State} (h : EngineInv s) : CountersBounded s :=
  ⟨h.inBound, h.outBound, h.wanted, h.copyBudget⟩

/-- Whose move is due bounds no counter. -/
theorem CountersBounded.withSchedule {s : State} (h : CountersBounded s) (rest : List Move) :
    CountersBounded { s with schedule := rest } :=
  ⟨h.inBound, h.outBound, h.wanted, h.copyBudget⟩

theorem WidthInv.withSchedule {s : State} (h : WidthInv s) (rest : List Move) : WidthInv { s with schedule := rest } :=
  ⟨h.targetLenReg, h.inLenReg, h.targetLen, h.inLen, h.outCount, h.inPos⟩

/-- The phase machine does not move in IDLE, where the counters have no bound. -/
theorem ne_idle_of_seqStep {s t : State} (h : seqStep s = .next t) : s.phase ≠ .idle := by
  intro hp
  simpa [hp, Phase.inRun] using seqStep_inRun h

/-- With output wanted the copy count is at least 1 and within the budget (42_match.md R101). -/
theorem copyCount_bounds (l : BitVec 4) {n c : Nat} (h : c < n) :
    1 ≤ (copyCount l n c).toNat ∧ (copyCount l n c).toNat ≤ n - c := by
  have hm : (matchLength l).toNat = l.toNat + 1 := by
    simp only [matchLength, Config.BREAK_EVEN, Config.IDXW, Config.LENBITS]
    bv_omega
  have hl := l.isLt
  unfold copyCount budget
  split_ifs with hr
  · rw [BitVec.toNat_add, hm]
    simp
    omega
  · rw [BitVec.toNat_ofNat, Nat.mod_eq_of_lt (by omega)]
    omega

/-- A step of the phase machine moves each counter by at most one, and below its length only. -/
theorem seqStep_counters_le {s t : State} (hb : CountersBounded s) (h : seqStep s = .next t) :
    t.inPos ≤ t.inLen ∧ t.outCount ≤ t.targetLen := by
  have hin := hb.inBound (ne_idle_of_seqStep h)
  have hout := hb.outBound (ne_idle_of_seqStep h)
  rcases seqStep_cases h with ⟨-, -, rfl⟩ | ⟨-, -, -, rfl⟩ | ⟨-, -, rfl⟩ | ⟨hlt, v, -, h⟩ | ⟨-, rfl⟩ | ⟨hp, rfl⟩
  · exact ⟨hin, hout⟩
  · exact ⟨hin, hout⟩
  · exact ⟨hin, hout⟩
  · rcases h with ⟨-, -, -, rfl⟩ | ⟨hp, rfl⟩ | ⟨-, rfl⟩ | ⟨-, rfl⟩
    · exact ⟨hlt, hout⟩
    · exact ⟨hlt, hb.wanted (by simp [hp])⟩
    · exact ⟨hlt, hout⟩
    · exact ⟨hlt, hout⟩
  · rcases matchCheck_cases s with ⟨-, e⟩ | ⟨-, e⟩ <;> rw [e] <;> exact ⟨hin, hout⟩
  · exact ⟨hin, hb.wanted (by simp [hp])⟩

/-- Inside a token output is still wanted. -/
theorem seqStep_wanted {s t : State} (hb : CountersBounded s) (h : seqStep s = .next t)
    (ht : t.phase ∈ [Phase.lit, .mB0, .mB1, .mChk, .copy]) : t.outCount < t.targetLen := by
  rcases seqStep_cases h with ⟨-, -, rfl⟩ | ⟨-, hne, -, rfl⟩ | ⟨-, -, rfl⟩ | ⟨-, v, -, h⟩ | ⟨hp, rfl⟩ | ⟨hp, rfl⟩
  · simp at ht
  · exact Nat.lt_of_le_of_ne (hb.outBound (ne_idle_of_seqStep h)) hne
  · simp at ht
  · rcases h with ⟨hp, -, -, rfl⟩ | ⟨-, rfl⟩ | ⟨hp, rfl⟩ | ⟨hp, rfl⟩
    · simp [hp] at ht
    · simp at ht
    · exact hb.wanted (by simp [hp])
    · exact hb.wanted (by simp [hp])
  · have hw := hb.wanted (by simp [hp])
    rcases matchCheck_cases s with ⟨-, e⟩ | ⟨-, e⟩ <;> rw [e] <;> exact hw
  · obtain ⟨hc, hle⟩ := hb.copyBudget hp
    simp only [copyStep_phase, copyStep_outCount, copyStep_targetLen] at ht ⊢
    split_ifs at ht with hz
    · simp at ht
    · bv_omega

/-- The bytes a copy has still to emit fit into the output. -/
theorem seqStep_copyBudget {s t : State} (hb : CountersBounded s) (h : seqStep s = .next t) (ht : t.phase = .copy) :
    1 ≤ t.cnt.toNat ∧ t.cnt.toNat ≤ t.targetLen - t.outCount := by
  rcases seqStep_cases h with ⟨-, -, rfl⟩ | ⟨-, -, -, rfl⟩ | ⟨-, -, rfl⟩ | ⟨-, v, -, h⟩ | ⟨hp, rfl⟩ | ⟨hp, rfl⟩
  · simp at ht
  · cases hf : flagBit s.control s.mask <;> simp [flagPhase, hf] at ht
  · simp at ht
  · rcases h with ⟨hp, -, -, rfl⟩ | ⟨-, rfl⟩ | ⟨-, rfl⟩ | ⟨-, rfl⟩
    · simp [hp] at ht
    · simp at ht
    · simp at ht
    · simp at ht
  · rcases matchCheck_cases s with ⟨-, e⟩ | ⟨-, e⟩ <;> rw [e] at ht ⊢
    · simp at ht
    · exact copyCount_bounds _ (hb.wanted (by simp [hp]))
  · obtain ⟨hc, hle⟩ := hb.copyBudget hp
    simp only [copyStep_phase, copyStep_cnt, copyStep_outCount, copyStep_targetLen] at ht ⊢
    split_ifs at ht with hz
    bv_omega

theorem seqStep_keeps_countersBounded {s t : State} (hb : CountersBounded s) (h : seqStep s = .next t) : CountersBounded t where
  inBound _ := (seqStep_counters_le hb h).1
  outBound _ := (seqStep_counters_le hb h).2
  wanted := seqStep_wanted hb h
  copyBudget := seqStep_copyBudget hb h

/-- No step of the phase machine writes a length, and a counter never passes its length: what holds the one holds the other. -/
theorem seqStep_keeps_widthInv {s t : State} (hb : CountersBounded s) (hw : WidthInv s) (h : seqStep s = .next t) :
    WidthInv t ∧ t.params = s.params := by
  obtain ⟨-, hInLen, hTargetLen, hTargetReg, hInReg, -, -, hParams⟩ := seqStep_keeps h
  obtain ⟨hin, hout⟩ := seqStep_counters_le hb h
  have inLen : t.inLen < 2 ^ t.params.inw := by rw [hInLen, hParams]; exact hw.inLen
  have targetLen : t.targetLen < 2 ^ t.params.lenw := by rw [hTargetLen, hParams]; exact hw.targetLen
  refine ⟨⟨?_, ?_, targetLen, inLen, hout.trans_lt targetLen, hin.trans_lt inLen⟩, hParams⟩
  · rw [hTargetReg, hParams]; exact hw.targetLenReg
  · rw [hInReg, hParams]; exact hw.inLenReg

theorem seqSteps_keeps_widthInv {n : Nat} {s t : State} (hb : CountersBounded s) (hw : WidthInv s) (h : seqSteps n s = .next t) :
    WidthInv t ∧ t.params = s.params := by
  have kept : CountersBounded t ∧ WidthInv t ∧ t.params = s.params :=
    seqSteps_keeps (P := fun u => CountersBounded u ∧ WidthInv u ∧ u.params = s.params)
      (fun u v ⟨hub, huw, hup⟩ huv =>
        have ⟨hvw, hvp⟩ := seqStep_keeps_widthInv hub huw huv
        ⟨seqStep_keeps_countersBounded hub huv, hvw, hvp.trans hup⟩)
      ⟨hb, hw, rfl⟩ h
  exact kept.2

/-- START copies the staging registers, hard reset clears all six, and a written value is cut to its register's width. -/
theorem hostStep_keeps_widthInv {a : HostAction} {s t : State} (hw : WidthInv s) (h : hostStep a s = .next t) :
    WidthInv t ∧ t.params = s.params := by
  have zero (k : Nat) : 0 < 2 ^ k := Nat.two_pow_pos k
  rcases hostStep_cases h with ⟨-, -, rfl⟩ | ⟨-, rfl⟩ | ⟨x, b, -, -, -, rfl⟩ | ⟨n, v, -, e, hTargetReg, hInReg⟩
  · exact ⟨⟨hw.targetLenReg, hw.inLenReg, hw.targetLenReg, hw.inLenReg, zero _, zero _⟩, rfl⟩
  · exact ⟨⟨zero _, zero _, zero _, zero _, zero _, zero _⟩, rfl⟩
  · exact ⟨⟨hw.targetLenReg, hw.inLenReg, hw.targetLen, hw.inLen, hw.outCount, hw.inPos⟩, rfl⟩
  · have targetReg : t.targetLenReg < 2 ^ s.params.lenw := by
      rcases hTargetReg with e | e <;> rw [e]
      · exact hw.targetLenReg
      · exact Nat.mod_lt _ (zero _)
    have inReg : t.inLenReg < 2 ^ s.params.inw := by
      rcases hInReg with e | e <;> rw [e]
      · exact hw.inLenReg
      · exact Nat.mod_lt _ (zero _)
    rw [e]
    exact ⟨⟨targetReg, inReg, hw.targetLen, hw.inLen, hw.outCount, hw.inPos⟩, rfl⟩

/-- Settles O48: an invariant of the phase machine's single steps and of the host's moves, carried over a whole token by
`step_cases`. -/
theorem registersKeepTheirWidths : Obligations.RegistersKeepTheirWidths := by
  intro s t hi hw h
  have hb := hi.countersBounded
  rcases step_cases h with ⟨-, n, h⟩ | ⟨rest, -, h⟩ | ⟨a, rest, -, h⟩
  · exact seqSteps_keeps_widthInv hb hw h
  · exact seqStep_keeps_widthInv (s := { s with schedule := rest }) (hb.withSchedule rest) (hw.withSchedule rest) h
  · exact hostStep_keeps_widthInv (s := { s with schedule := rest }) (hw.withSchedule rest) h

end Sys2Proof.Machine
end

section
/-! SUPPORT. What a step of the phase machine and a move of the host do to the output and the Window, and the facts about the two
memories that every one of them keeps (10_state.md R16, R17, R27, R28). -/

namespace Sys2Proof.Machine

/-- A property that the phase machine's single steps and the host's moves keep, whoever moves next, every step of the machine
keeps. -/
theorem step_keeps {P : State → Prop} (hsched : ∀ s rest, P s → P { s with schedule := rest })
    (hseq : ∀ s t, P s → seqStep s = .next t → P t) (hhost : ∀ a s t, P s → hostStep a s = .next t → P t) {s t : State}
    (hs : P s) (h : step s = .next t) : P t := by
  rcases step_cases h with ⟨-, n, h⟩ | ⟨rest, -, h⟩ | ⟨a, rest, -, h⟩
  · exact seqSteps_keeps hseq hs h
  · exact hseq _ _ (hsched _ rest hs) h
  · exact hhost a _ _ (hsched _ rest hs) h

/-- Two states with the same output, Window and write cursors. -/
structure SameOutput (s t : State) : Prop where
  win : t.win = s.win
  out : t.out = s.out
  pos : t.pos = s.pos
  outCount : t.outCount = s.outCount

/-- A sequencer step leaves output and Window alone, or it emits one byte and writes it to the Window (R90, R103). -/
theorem seqStep_output {s t : State} (h : seqStep s = .next t) :
    SameOutput s t ∨ ∃ c, SameOutput (winWrite c (emit c s)) t := by
  rcases seqStep_cases h with ⟨-, -, rfl⟩ | ⟨-, -, -, rfl⟩ | ⟨-, -, rfl⟩ | ⟨-, v, -, h⟩ | ⟨-, rfl⟩ | ⟨-, rfl⟩
  · exact .inl ⟨rfl, rfl, rfl, rfl⟩
  · exact .inl ⟨rfl, rfl, rfl, rfl⟩
  · exact .inl ⟨rfl, rfl, rfl, rfl⟩
  · rcases h with ⟨-, -, -, rfl⟩ | ⟨-, rfl⟩ | ⟨-, rfl⟩ | ⟨-, rfl⟩
    · exact .inl ⟨rfl, rfl, rfl, rfl⟩
    · exact .inr ⟨v, rfl, rfl, rfl, rfl⟩
    · exact .inl ⟨rfl, rfl, rfl, rfl⟩
    · exact .inl ⟨rfl, rfl, rfl, rfl⟩
  · rcases matchCheck_cases s with ⟨-, e⟩ | ⟨-, e⟩ <;> rw [e] <;> exact .inl ⟨rfl, rfl, rfl, rfl⟩
  · exact .inr ⟨winSlot s s.msrc, rfl, rfl, rfl, rfl⟩

/-- A host move begins a decode, resets the engine, or leaves its phase, output and Window alone. -/
theorem hostStep_output {a : HostAction} {s t : State} (h : hostStep a s = .next t) :
    t = start s.inLenReg s.targetLenReg s ∨ t = hardReset s ∨ t.phase = s.phase ∧ SameOutput s t := by
  rcases hostStep_cases h with ⟨-, -, rfl⟩ | ⟨-, rfl⟩ | ⟨x, b, -, -, -, rfl⟩ | ⟨n, v, -, e, -, -⟩
  · exact .inl rfl
  · exact .inr (.inl rfl)
  · exact .inr (.inr ⟨rfl, rfl, rfl, rfl, rfl⟩)
  · rw [e]
    exact .inr (.inr ⟨rfl, rfl, rfl, rfl, rfl⟩)

/-- The part of `EngineInv` about the output and the Window. -/
structure OutputWf (s : State) : Prop where
  winWf : Memory.wf .win s.win = true
  outWf : Memory.wf .out s.out = true
  winSlots : ∀ c ∈ s.win, c.1 < 4096
  posOut : s.pos.toNat = (1 + s.outCount) % 4096

theorem EngineInv.outputWf {s : State} (h : EngineInv s) (hp : s.phase ≠ .idle) : OutputWf s :=
  ⟨h.winWf, h.outWf, h.winSlots, h.posOut hp⟩

theorem OutputWf.congr {s t : State} (h : OutputWf s) (e : SameOutput s t) : OutputWf t where
  winWf := e.win ▸ h.winWf
  outWf := e.out ▸ h.outWf
  winSlots := e.win ▸ h.winSlots
  posOut := by rw [e.pos, e.outCount]; exact h.posOut

theorem OutputWf.emitted {s : State} (h : OutputWf s) (c : Byte) : OutputWf (winWrite c (emit c s)) where
  winWf := Memory.wf_write h.winWf _ _
  outWf := Memory.wf_write h.outWf _ _
  winSlots x hx := by
    rcases Memory.mem_write hx with rfl | hx
    · exact s.pos.isLt
    · exact h.winSlots x hx
  posOut := by
    have hpos := h.posOut
    simp only [winWrite_pos, emit_pos, winWrite_outCount, emit_outCount]
    bv_omega

theorem seqStep_keeps_outputWf {s t : State} (hs : OutputWf s) (h : seqStep s = .next t) : OutputWf t := by
  rcases seqStep_output h with e | ⟨c, e⟩
  · exact hs.congr e
  · exact (hs.emitted c).congr e

/-- What `WindowInv` says of a decode, whatever the phase. -/
structure OutputMirrored (s : State) : Prop where
  outListed : ∀ a : Nat, (Memory.read .out s.out a).isSome = true ↔ a < s.outCount
  mirror : ∀ j : Nat, j < s.outCount → s.outCount ≤ j + 4096 →
    Memory.read .out s.out j = some (winSlot s (BitVec.ofNat 12 (1 + j)))
  fill : ∀ slot : Slot, written s slot = false → winSlot s slot = Config.WINDOW_FILL

theorem windowInv_iff {s : State} : WindowInv s ↔ (s.phase ≠ .idle → OutputMirrored s) :=
  ⟨fun h hp => ⟨h.outListed hp, h.mirror hp, h.fill hp⟩,
    fun h => ⟨fun hp => (h hp).outListed, fun hp => (h hp).mirror, fun hp => (h hp).fill⟩⟩

/-- `Written` is a function of `out_count` (R28). -/
theorem written_congr {s t : State} (h : t.outCount = s.outCount) (slot : Slot) : written t slot = written s slot := by
  unfold written; rw [h]

theorem OutputMirrored.congr {s t : State} (h : OutputMirrored s) (e : SameOutput s t) : OutputMirrored t where
  outListed := by rw [e.out, e.outCount]; exact h.outListed
  mirror j := by rw [e.out, e.outCount, winSlot_congr e.win]; exact h.mirror j
  fill slot := by rw [written_congr e.outCount, winSlot_congr e.win]; exact h.fill slot

theorem written_eq_false_iff {s : State} {slot : Slot} :
    written s slot = false ↔ s.outCount < 4096 ∧ (1 ≤ slot.toNat → s.outCount < slot.toNat) := by
  simp [written]

/-- A slot that is unwritten after an emission is neither the one just written nor an earlier one. -/
theorem unwritten_before_emission {s : State} (h : OutputWf s) {c : Byte} {slot : Slot}
    (hw : written (winWrite c (emit c s)) slot = false) : slot ≠ s.pos ∧ written s slot = false := by
  have hpos := h.posOut
  obtain ⟨hfew, hout⟩ := written_eq_false_iff.1 hw
  rw [winWrite_outCount, emit_outCount] at hfew hout
  exact ⟨by rintro rfl; omega, written_eq_false_iff.2 ⟨by omega, by omega⟩⟩

/-- The slot of one of the last 4095 output bytes is not the next one to be written. -/
theorem mirrorSlot_ne_pos {s : State} (h : OutputWf s) {j : Nat} (hj : j < s.outCount) (hlast : s.outCount < j + 4096) :
    BitVec.ofNat 12 (1 + j) ≠ s.pos := by
  intro e
  have hpos := h.posOut
  rw [← e, BitVec.toNat_ofNat] at hpos
  omega

/-- The slot to be written next is the one of the byte to be emitted next. -/
theorem mirrorSlot_outCount {s : State} (h : OutputWf s) : BitVec.ofNat 12 (1 + s.outCount) = s.pos :=
  BitVec.eq_of_toNat_eq (by rw [BitVec.toNat_ofNat, h.posOut])

/-- The emitted byte stands at the end of the output and in its slot; every other byte and slot is an old one. -/
theorem OutputMirrored.emitted {s : State} (hwf : OutputWf s) (h : OutputMirrored s) (c : Byte) :
    OutputMirrored (winWrite c (emit c s)) := by
  have readOut (a : Nat) : Memory.read .out (winWrite c (emit c s)).out a =
      if a = s.outCount then some c else Memory.read .out s.out a := Memory.read_write hwf.outWf _ _ _
  have slots (slot : Slot) : winSlot (winWrite c (emit c s)) slot = if slot = s.pos then c else winSlot s slot :=
    winSlot_winWrite (s := emit c s) hwf.winWf c slot
  refine ⟨fun a => ?_, fun j hj hlast => ?_, fun slot hw => ?_⟩
  · rw [readOut, winWrite_outCount, emit_outCount]
    split_ifs with ha
    · simp [ha]
    · rw [h.outListed]; omega
  · rw [winWrite_outCount, emit_outCount] at hj hlast
    rw [readOut, slots]
    rcases Nat.lt_succ_iff_lt_or_eq.1 hj with hj | rfl
    · rw [if_neg hj.ne, if_neg (mirrorSlot_ne_pos hwf hj (by omega)), h.mirror j hj (by omega)]
    · rw [if_pos rfl, if_pos (mirrorSlot_outCount hwf)]
  · obtain ⟨hne, hw⟩ := unwritten_before_emission hwf hw
    rw [slots, if_neg hne, h.fill slot hw]

/-- After START nothing is listed, and every slot holds the fill (R110). -/
theorem start_outputMirrored (l n : Nat) (s : State) : OutputMirrored (start l n s) where
  outListed a := by simp [unlisted]
  mirror j hj := by simp at hj
  fill _ _ := rfl

theorem seqStep_keeps_windowInv {s t : State} (hi : EngineInv s) (hw : WindowInv s) (h : seqStep s = .next t) : WindowInv t := by
  have hp := ne_idle_of_seqStep h
  have hm := windowInv_iff.1 hw hp
  refine windowInv_iff.2 fun _ => ?_
  rcases seqStep_output h with e | ⟨c, e⟩
  · exact hm.congr e
  · exact (hm.emitted (hi.outputWf hp) c).congr e

theorem hostStep_keeps_windowInv {a : HostAction} {s t : State} (hw : WindowInv s) (h : hostStep a s = .next t) :
    WindowInv t := by
  refine windowInv_iff.2 fun hp => ?_
  rcases hostStep_output h with rfl | rfl | ⟨e, same⟩
  · exact start_outputMirrored _ _ s
  · exact absurd rfl hp
  · exact (windowInv_iff.1 hw (e ▸ hp)).congr same

end Sys2Proof.Machine
end

section
/-! SUPPORT. What one step of the phase machine can do to `err`, `mask`, `cnt` and the cursor, and the two ways into COPY; from
these, that every step keeps the engine's invariants (10_state.md R11 to R25, 42_match.md R105). -/

namespace Sys2Proof.Machine

/-- A sequencer step keeps `err` and stays out of ERROR, or it takes an error. -/
theorem seqStep_err {s t : State} (h : seqStep s = .next t) :
    t.phase ≠ .error ∧ t.err = s.err ∨ ∃ k, t = raise k s := by
  rcases seqStep_cases h with ⟨-, -, rfl⟩ | ⟨-, -, -, rfl⟩ | ⟨-, -, rfl⟩ | ⟨-, v, -, h⟩ | ⟨-, rfl⟩ | ⟨-, rfl⟩
  · exact .inl ⟨nofun, rfl⟩
  · refine .inl ⟨?_, rfl⟩
    cases hf : flagBit s.control s.mask <;> simp [hf, flagPhase]
  · exact .inr ⟨_, rfl⟩
  · rcases h with ⟨hp, -, -, rfl⟩ | ⟨-, rfl⟩ | ⟨-, rfl⟩ | ⟨-, rfl⟩
    · exact .inl ⟨by simp [hp], rfl⟩
    · exact .inl ⟨nofun, rfl⟩
    · exact .inl ⟨nofun, rfl⟩
    · exact .inl ⟨nofun, rfl⟩
  · rcases matchCheck_cases s with ⟨-, e⟩ | ⟨-, e⟩ <;> rw [e]
    · exact .inr ⟨_, rfl⟩
    · exact .inl ⟨nofun, rfl⟩
  · refine .inl ⟨?_, rfl⟩
    rw [copyStep_phase]
    split_ifs <;> nofun

/-- A sequencer step keeps the mask, loads it with 1, or moves it on by one bit unless a reload is due (R14). -/
theorem seqStep_mask {s t : State} (h : seqStep s = .next t) :
    t.mask = s.mask ∨ t.mask = Config.MASK_FIRST ∨ s.mask ≠ Config.MASK_RELOAD ∧ t.mask = maskAdvance s.mask := by
  rcases seqStep_cases h with ⟨-, -, rfl⟩ | ⟨-, -, hm, rfl⟩ | ⟨-, -, rfl⟩ | ⟨-, v, -, h⟩ | ⟨-, rfl⟩ | ⟨-, rfl⟩
  · exact .inl rfl
  · exact .inr (.inr ⟨hm, rfl⟩)
  · exact .inl rfl
  · rcases h with ⟨-, -, -, rfl⟩ | ⟨-, rfl⟩ | ⟨-, rfl⟩ | ⟨-, rfl⟩
    · exact .inr (.inl rfl)
    · exact .inl rfl
    · exact .inl rfl
    · exact .inl rfl
  · rcases matchCheck_cases s with ⟨-, e⟩ | ⟨-, e⟩ <;> rw [e] <;> exact .inl rfl
  · exact .inl rfl

/-- A sequencer step keeps `cnt`, sets up a copy from M_CHK, or counts down in COPY. -/
theorem seqStep_cnt {s t : State} (h : seqStep s = .next t) :
    t.cnt = s.cnt ∨ (∃ l, t.cnt = copyCount l s.targetLen s.outCount) ∨ s.phase = .copy ∧ t.cnt = s.cnt - 1 := by
  rcases seqStep_cases h with ⟨-, -, rfl⟩ | ⟨-, -, -, rfl⟩ | ⟨-, -, rfl⟩ | ⟨-, v, -, h⟩ | ⟨-, rfl⟩ | ⟨hp, rfl⟩
  · exact .inl rfl
  · exact .inl rfl
  · exact .inl rfl
  · rcases h with ⟨-, -, -, rfl⟩ | ⟨-, rfl⟩ | ⟨-, rfl⟩ | ⟨-, rfl⟩ <;> exact .inl rfl
  · rcases matchCheck_cases s with ⟨-, e⟩ | ⟨-, e⟩ <;> rw [e]
    · exact .inl rfl
    · exact .inr (.inl ⟨_, rfl⟩)
  · exact .inr (.inr ⟨hp, rfl⟩)

/-- A sequencer step keeps the stream cursor, or moves it by one below `in_len` (R41). -/
theorem seqStep_inPos {s t : State} (h : seqStep s = .next t) :
    t.inPos = s.inPos ∨ s.inPos < s.inLen ∧ t.inPos = s.inPos + 1 := by
  rcases seqStep_cases h with ⟨-, -, rfl⟩ | ⟨-, -, -, rfl⟩ | ⟨-, -, rfl⟩ | ⟨hlt, v, -, h⟩ | ⟨-, rfl⟩ | ⟨-, rfl⟩
  · exact .inl rfl
  · exact .inl rfl
  · exact .inl rfl
  · rcases h with ⟨-, -, -, rfl⟩ | ⟨-, rfl⟩ | ⟨-, rfl⟩ | ⟨-, rfl⟩ <;> exact .inr ⟨hlt, rfl⟩
  · rcases matchCheck_cases s with ⟨-, e⟩ | ⟨-, e⟩ <;> rw [e] <;> exact .inl rfl
  · exact .inl rfl

/-- COPY is entered by a check that passes, and goes on by a copy step. -/
theorem seqStep_to_copy {s t : State} (h : seqStep s = .next t) (ht : t.phase = .copy) :
    (s.phase = .mChk ∧ backRefInvalid t.pos t.msrc t.outCount = false) ∨ (s.phase = .copy ∧ t = copyStep s) := by
  rcases seqStep_cases h with ⟨-, -, rfl⟩ | ⟨-, -, -, rfl⟩ | ⟨-, -, rfl⟩ | ⟨-, v, -, h⟩ | ⟨hp, rfl⟩ | ⟨hp, rfl⟩
  · simp at ht
  · cases hf : flagBit s.control s.mask <;> simp [flagPhase, hf] at ht
  · simp at ht
  · rcases h with ⟨hp, -, -, rfl⟩ | ⟨-, rfl⟩ | ⟨-, rfl⟩ | ⟨-, rfl⟩ <;> simp [*] at ht
  · rcases matchCheck_cases s with ⟨-, e⟩ | ⟨hv, e⟩ <;> rw [e] at ht ⊢
    · simp at ht
    · exact .inl ⟨hp, hv⟩
  · exact .inr ⟨hp, rfl⟩

/-- DONE is entered by the completion test. -/
theorem seqStep_to_done {s t : State} (h : seqStep s = .next t) (ht : t.phase = .done) : t.outCount = t.targetLen := by
  rcases seqStep_cases h with ⟨-, hfull, rfl⟩ | ⟨-, -, -, rfl⟩ | ⟨-, -, rfl⟩ | ⟨-, v, -, h⟩ | ⟨-, rfl⟩ | ⟨-, rfl⟩
  · exact hfull
  · cases hf : flagBit s.control s.mask <;> simp [flagPhase, hf] at ht
  · simp at ht
  · rcases h with ⟨hp, -, -, rfl⟩ | ⟨-, rfl⟩ | ⟨-, rfl⟩ | ⟨-, rfl⟩ <;> simp [*] at ht
  · rcases matchCheck_cases s with ⟨-, e⟩ | ⟨-, e⟩ <;> simp [e] at ht
  · rw [copyStep_phase] at ht
    split_ifs at ht

/-- A bit moved on from one of the nine values but the last is one of the nine values. -/
theorem maskAdvance_mem {m : Mask} (h : m ∈ maskValues) (hne : m ≠ Config.MASK_RELOAD) : maskAdvance m ∈ maskValues := by
  decide +revert

/-- `match_length` and the nominal count do not wrap (R98). -/
theorem toNat_matchLength (l : BitVec 4) : (matchLength l).toNat = l.toNat + 1 ∧ (matchLength l + 1).toNat = l.toNat + 2 := by
  simp only [matchLength, Config.BREAK_EVEN, Config.IDXW, Config.LENBITS]
  bv_omega

/-- The nominal count is at most 17, and the clamp only lowers it (R101, R102). -/
theorem copyCount_le (l : BitVec 4) (n c : Nat) : (copyCount l n c).toNat ≤ 17 := by
  obtain ⟨hlen, hnominal⟩ := toNat_matchLength l
  have hl := l.isLt
  unfold copyCount
  split_ifs with hr
  · omega
  · rw [BitVec.toNat_ofNat]
    omega

/-- A copy step moves both ends of the distance (R105). -/
theorem distance_succ (pos p : Slot) : distance (pos + 1) (p + 1) = distance pos p := by
  have h : distance0 (pos + 1) (p + 1) = distance0 pos p := by unfold distance0; bv_omega
  unfold distance
  rw [h]

/-- A back-reference that was valid stays so as both ends move on and the output grows (R105). -/
theorem backRefInvalid_copyStep {s : State} (h : backRefInvalid s.pos s.msrc s.outCount = false) :
    backRefInvalid (copyStep s).pos (copyStep s).msrc (copyStep s).outCount = false := by
  simp only [backRefInvalid, copyStep_pos, copyStep_msrc, copyStep_outCount, distance_succ, decide_eq_false_iff_not] at h ⊢
  omega

/-- Outside ERROR no error is latched. -/
theorem EngineInv.err_eq_none {s : State} (h : EngineInv s) (hp : s.phase ≠ .error) : s.err = none := by
  by_contra he
  exact hp (h.errIff.1 he)

theorem seqStep_errIff {s t : State} (hi : EngineInv s) (h : seqStep s = .next t) : t.err ≠ none ↔ t.phase = .error := by
  have hp : s.phase ≠ .error := by
    intro hp
    simpa [hp, Phase.inRun] using seqStep_inRun h
  rcases seqStep_err h with ⟨ht, e⟩ | ⟨k, rfl⟩
  · simp [ht, e, hi.err_eq_none hp]
  · simp

theorem seqStep_maskValue {s t : State} (hi : EngineInv s) (h : seqStep s = .next t) : t.mask ∈ maskValues := by
  have hm := hi.maskValue (ne_idle_of_seqStep h)
  rcases seqStep_mask h with e | e | ⟨hne, e⟩ <;> rw [e]
  · exact hm
  · decide
  · exact maskAdvance_mem hm hne

theorem seqStep_cntRange {s t : State} (hi : EngineInv s) (h : seqStep s = .next t) : t.cnt.toNat ≤ 17 := by
  have hc := hi.cntRange (ne_idle_of_seqStep h)
  rcases seqStep_cnt h with e | ⟨l, e⟩ | ⟨hp, e⟩ <;> rw [e]
  · exact hc
  · exact copyCount_le l _ _
  · obtain ⟨hone, -⟩ := hi.copyBudget hp
    bv_omega

theorem seqStep_copySource {s t : State} (hi : EngineInv s) (h : seqStep s = .next t) (ht : t.phase = .copy) :
    backRefInvalid t.pos t.msrc t.outCount = false := by
  rcases seqStep_to_copy h ht with ⟨-, hv⟩ | ⟨hp, rfl⟩
  · exact hv
  · exact backRefInvalid_copyStep (hi.copySource hp)

theorem seqStep_keeps_engineInv {s t : State} (hi : EngineInv s) (h : seqStep s = .next t) : EngineInv t := by
  obtain ⟨hcs, -⟩ := seqStep_keeps h
  have counters := seqStep_keeps_countersBounded hi.countersBounded h
  have output := seqStep_keeps_outputWf (hi.outputWf (ne_idle_of_seqStep h)) h
  exact {
    csWf := hcs ▸ hi.csWf
    winWf := output.winWf
    outWf := output.outWf
    winSlots := output.winSlots
    errIff := seqStep_errIff hi h
    maskValue := fun _ => seqStep_maskValue hi h
    posOut := fun _ => output.posOut
    inBound := counters.inBound
    outBound := counters.outBound
    wanted := counters.wanted
    copyBudget := counters.copyBudget
    cntRange := fun _ => seqStep_cntRange hi h
    copySource := seqStep_copySource hi h
    doneFull := seqStep_to_done h }

/-- A begun decode meets the invariants whatever ran before and whatever the free values (R110). -/
theorem start_engineInv (l n : Nat) {s : State} (h : Memory.wf .cs s.cs = true) : EngineInv (start l n s) where
  csWf := h
  winWf := rfl
  outWf := rfl
  winSlots := nofun
  errIff := by simp
  maskValue _ := by simp
  posOut _ := rfl
  inBound _ := Nat.zero_le l
  outBound _ := Nat.zero_le n
  wanted hp := by simp at hp
  copyBudget := nofun
  cntRange _ := by
    have hc := (Config.freeCopyCount s.freeCount).isLt
    rw [start_cnt, BitVec.toNat_ofNat]
    omega
  copySource := nofun
  doneFull := nofun

/-- In IDLE the invariants of a decode are not asked (R145). -/
theorem hardReset_engineInv {s : State} (h : Memory.wf .cs s.cs = true) : EngineInv (hardReset s) where
  csWf := h
  winWf := rfl
  outWf := rfl
  winSlots := nofun
  errIff := by simp
  maskValue hp := absurd rfl hp
  posOut hp := absurd rfl hp
  inBound hp := absurd rfl hp
  outBound hp := absurd rfl hp
  wanted hp := by simp at hp
  copyBudget := nofun
  cntRange hp := absurd rfl hp
  copySource := nofun
  doneFull := nofun

theorem hostStep_keeps_engineInv {a : HostAction} {s t : State} (hi : EngineInv s) (h : hostStep a s = .next t) : EngineInv t := by
  rcases hostStep_cases h with ⟨-, -, rfl⟩ | ⟨-, rfl⟩ | ⟨x, b, -, -, -, rfl⟩ | ⟨n, v, -, e, -, -⟩
  · exact start_engineInv _ _ hi.csWf
  · exact hardReset_engineInv hi.csWf
  · exact { hi with csWf := Memory.wf_write hi.csWf x b }
  · rw [e]
    exact { hi with }

theorem EngineInv.withSchedule {s : State} (h : EngineInv s) (rest : List Move) : EngineInv { s with schedule := rest } :=
  { h with }

/-- Settles O47: an invariant of the phase machine's single steps and of the host's moves is one of the machine. -/
theorem engineInvariantKept : Obligations.EngineInvariantKept := fun _ _ hi h =>
  step_keeps (fun _ rest hs => hs.withSchedule rest) (fun _ _ => seqStep_keeps_engineInv)
    (fun _ _ _ => hostStep_keeps_engineInv) hi h

/-- Settles O49: an emission writes one byte to the output and the same byte to the slot at `pos`, which is its mirror slot as long
as `pos = (1 + out_count) mod 4096`. -/
theorem windowMirrorsOutput : Obligations.WindowMirrorsOutput := by
  intro s t hi hw h
  have kept : EngineInv t ∧ WindowInv t :=
    step_keeps (P := fun s => EngineInv s ∧ WindowInv s)
      (fun s rest ⟨hi, hw⟩ => ⟨hi.withSchedule rest, windowInv_iff.2 fun hp => (windowInv_iff.1 hw hp).congr ⟨rfl, rfl, rfl, rfl⟩⟩)
      (fun s t ⟨hi, hw⟩ h => ⟨seqStep_keeps_engineInv hi h, seqStep_keeps_windowInv hi hw h⟩)
      (fun a s t ⟨hi, hw⟩ h => ⟨hostStep_keeps_engineInv hi h, hostStep_keeps_windowInv hw h⟩)
      ⟨hi, hw⟩ h
  exact kept.2

/-- Settles O35: the cursor moves in a StreamRead below `in_len` only. -/
theorem cursorOnlyAdvances : Obligations.CursorOnlyAdvances := by
  intro s t hi h
  have hin := hi.inBound (ne_idle_of_seqStep h)
  rcases seqStep_inPos h with e | ⟨hlt, e⟩ <;> rw [e]
  · exact ⟨.inl rfl, hin⟩
  · exact ⟨.inr rfl, hlt⟩

end Sys2Proof.Machine
end

section
/-! SUPPORT. Two states that agree on what a decode can still read (`SameDecode`) take the same steps of the phase machine
(43_decode_sequence.md R115, R117): what START leaves unspecified cannot be told from the counters. -/

namespace Sys2Proof.Machine

namespace SameDecode

variable {s t : State}

theorem raise (h : SameDecode s t) (k : EngineError) : SameDecode (raise k s) (raise k t) :=
  { h with
    phase := rfl
    err := rfl
    b0 := by simp
    b1 := nofun
    msrc := nofun
    cnt := nofun }

theorem finishDecode (h : SameDecode s t) : SameDecode (finishDecode s) (finishDecode t) :=
  { h with
    phase := rfl
    b0 := by simp
    b1 := nofun
    msrc := nofun
    cnt := nofun }

theorem advance (h : SameDecode s t) : SameDecode (advance s) (advance t) :=
  { h with inPos := by rw [advance_inPos, advance_inPos, h.inPos] }

theorem loadControl (h : SameDecode s t) (f : Byte) : SameDecode (loadControl f s) (loadControl f t) :=
  { h with
    mask := rfl
    control := fun _ => rfl }

theorem flagStep (h : SameDecode s t) (hm : s.mask ≠ Config.MASK_RELOAD) : SameDecode (flagStep s) (flagStep t) := by
  have hc := h.control hm
  have hp : flagPhase (flagBit s.control s.mask) = .lit ∨ flagPhase (flagBit s.control s.mask) = .mB0 := by
    cases flagBit s.control s.mask
    · exact .inr rfl
    · exact .inl rfl
  exact { h with
    phase := by rw [flagStep_phase, flagStep_phase, hc, h.mask]
    mask := by rw [flagStep_mask, flagStep_mask, h.mask]
    control := fun _ => hc
    b0 := by rcases hp with e | e <;> simp [e]
    b1 := by rcases hp with e | e <;> simp [e]
    msrc := by rcases hp with e | e <;> simp [e]
    cnt := by rcases hp with e | e <;> simp [e] }

theorem latchB0 (h : SameDecode s t) (b : Byte) : SameDecode (latchB0 b s) (latchB0 b t) :=
  { h with
    phase := rfl
    b0 := fun _ => rfl
    b1 := nofun
    msrc := nofun
    cnt := nofun }

theorem latchB1 (h : SameDecode s t) (hp : s.phase = .mB1) (b : Byte) : SameDecode (latchB1 b s) (latchB1 b t) :=
  { h with
    phase := rfl
    b0 := fun _ => h.b0 (by simp [hp])
    b1 := fun _ => rfl
    msrc := nofun
    cnt := nofun }

/-- The same byte emitted and written to the Window. -/
theorem emitted (h : SameDecode s t) (c : Byte) : SameDecode (winWrite c (emit c s)) (winWrite c (emit c t)) :=
  { h with
    pos := by rw [winWrite_pos, winWrite_pos, emit_pos, emit_pos, h.pos]
    win := by rw [winWrite_win, winWrite_win, emit_win, emit_win, emit_pos, emit_pos, h.win, h.pos]
    out := by rw [winWrite_out, winWrite_out, emit_out, emit_out, h.out, h.outCount]
    outCount := by rw [winWrite_outCount, winWrite_outCount, emit_outCount, emit_outCount, h.outCount] }

theorem putLiteral (h : SameDecode s t) (c : Byte) : SameDecode (putLiteral c s) (putLiteral c t) :=
  { h.emitted c with
    phase := rfl
    b0 := by simp
    b1 := nofun
    msrc := nofun
    cnt := nofun }

/-- Both checks fault, or both set up the same copy from the same latched pair. -/
theorem matchCheck (h : SameDecode s t) (hp : s.phase = .mChk) : SameDecode (matchCheck s) (matchCheck t) := by
  have hb0 := h.b0 (by simp [hp])
  have hb1 := h.b1 hp
  rcases matchCheck_cases s with ⟨hs, es⟩ | ⟨hs, es⟩ <;> rcases matchCheck_cases t with ⟨ht, et⟩ | ⟨ht, et⟩
  all_goals rw [hb0, hb1, h.pos, h.outCount, ht] at hs
  · rw [es, et]
    exact h.raise _
  · cases hs
  · cases hs
  · rw [es, et]
    exact { h with
      phase := rfl
      b0 := by simp
      b1 := nofun
      msrc := fun _ => by rw [hb0, hb1]
      cnt := fun _ => by rw [hb0, h.targetLen, h.outCount] }

/-- The same slot is read and its byte emitted. -/
theorem copyStep (h : SameDecode s t) (hp : s.phase = .copy) : SameDecode (copyStep s) (copyStep t) := by
  have hmsrc := h.msrc hp
  have hcnt := h.cnt hp
  have hc : winSlot s s.msrc = winSlot t t.msrc := by rw [hmsrc, winSlot_congr h.win]
  have emitted := h.emitted (winSlot s s.msrc)
  exact { h with
    phase := by rw [copyStep_phase, copyStep_phase, hcnt]
    pos := emitted.pos
    win := by rw [copyStep_win, copyStep_win, hc, h.win, h.pos]
    out := by rw [copyStep_out, copyStep_out, hc, h.out, h.outCount]
    outCount := emitted.outCount
    b0 := by rw [copyStep_phase]; split_ifs <;> simp
    b1 := by rw [copyStep_phase]; split_ifs <;> nofun
    msrc := fun _ => by rw [copyStep_msrc, copyStep_msrc, hmsrc]
    cnt := fun _ => by rw [copyStep_cnt, copyStep_cnt, hcnt] }

end SameDecode

/-- Two states of the same decode read the same byte of the stream, or stop alike. -/
theorem sameOutcome_streamRead {s t : State} (h : SameDecode s t) {k : Byte → State → State}
    (hk : ∀ v, SameDecode (k v (advance s)) (k v (advance t))) : SameOutcome (streamRead k s) (streamRead k t) := by
  by_cases hl : s.inPos < s.inLen
  · have hl' : t.inPos < t.inLen := by rw [← h.inPos, ← h.inLen]; exact hl
    have hread : Memory.read .cs t.cs t.inPos = Memory.read .cs s.cs s.inPos := by rw [h.stream _ hl, h.inPos]
    cases hv : Memory.read .cs s.cs s.inPos with
    | none =>
      rw [streamRead_of_none hl hv, streamRead_of_none hl' (hread.trans hv)]
      exact rfl
    | some v =>
      rw [streamRead_of_some hl hv, streamRead_of_some hl' (hread.trans hv)]
      exact hk v
  · rw [Nat.not_lt] at hl
    rw [streamRead_of_le hl, streamRead_of_le (h.inPos ▸ h.inLen ▸ hl)]
    exact h.raise _

theorem sameOutcome_queryStep {s t : State} (h : SameDecode s t) : SameOutcome (queryStep s) (queryStep t) := by
  unfold queryStep
  rw [← h.outCount, ← h.targetLen, ← h.mask]
  split_ifs with hfull hm
  · exact h.finishDecode
  · exact sameOutcome_streamRead h fun v => h.advance.loadControl v
  · exact h.flagStep hm

/-- Two states of the same decode take the same step of the phase machine. -/
theorem sameOutcome_seqStep {s t : State} (h : SameDecode s t) : SameOutcome (seqStep s) (seqStep t) := by
  unfold seqStep
  rw [← h.phase]
  cases hp : s.phase with
  | query => exact sameOutcome_queryStep h
  | lit => exact sameOutcome_streamRead h fun v => h.advance.putLiteral v
  | mB0 => exact sameOutcome_streamRead h fun v => h.advance.latchB0 v
  | mB1 => exact sameOutcome_streamRead h fun v => h.advance.latchB1 hp v
  | mChk => exact h.matchCheck hp
  | copy => exact h.copyStep hp
  | idle | done | error => exact rfl

/-- The run of one of two states of the same decode is a run of the other. -/
theorem SameDecode.seqSteps {n : Nat} {s s' t : State} (h : SameDecode s t) (hs : seqSteps n s = .next s') :
    ∃ t', Machine.seqSteps n t = .next t' ∧ SameDecode s' t' := by
  induction n generalizing s t with
  | zero =>
    cases hs
    exact ⟨t, rfl, h⟩
  | succ n ih =>
    have same := sameOutcome_seqStep h
    simp only [Machine.seqSteps] at hs ⊢
    split at hs
    · rename_i u hu
      rw [hu] at same
      cases hv : seqStep t <;> simp only [hv, SameOutcome] at same
      exact ih same hs
    · cases hs
    · cases hs

/-- START with the same operands over the same stream begins the same decode, whatever ran before (R146). -/
theorem start_sameDecode {s t : State} {l : Nat} (n : Nat)
    (h : ∀ a : Nat, a < l → Memory.read .cs s.cs a = Memory.read .cs t.cs a) : SameDecode (start l n s) (start l n t) where
  phase := rfl
  err := rfl
  mask := rfl
  pos := rfl
  win := rfl
  inPos := rfl
  inLen := rfl
  outCount := rfl
  targetLen := rfl
  out := rfl
  stream := h
  control hm := absurd rfl hm
  b0 := by simp
  b1 := nofun
  msrc := nofun
  cnt := nofun

end Sys2Proof.Machine
end

section
/-! SUPPORT. What the host sees and does (10_state.md R32 to R35): the counters a read shows in RUN, STATUS and its fields, and the
register file. -/

namespace Sys2Proof.Machine

/-- No step of the phase machine changes the stream or the operands of the decode. -/
theorem seqSteps_start_keeps {j l n : Nat} {u s : State} (h : seqSteps j (start l n u) = .next s) :
    s.cs = u.cs ∧ s.inLen = l ∧ s.targetLen = n :=
  seqSteps_keeps (s := start l n u) (P := fun s => s.cs = u.cs ∧ s.inLen = l ∧ s.targetLen = n)
    (fun s t ⟨hcs, hl, hn⟩ h => by
      obtain ⟨tcs, tl, tn, -⟩ := seqStep_keeps h
      exact ⟨tcs.trans hcs, tl.trans hl, tn.trans hn⟩)
    ⟨rfl, rfl, rfl⟩ h

theorem start_countersBounded (l n : Nat) (s : State) : CountersBounded (start l n s) where
  inBound _ := Nat.zero_le l
  outBound _ := Nat.zero_le n
  wanted hp := by simp at hp
  copyBudget := nofun

/-- The counters of a decode never pass its operands. -/
theorem seqSteps_start_counters_le {j l n : Nat} {u s : State} (h : seqSteps j (start l n u) = .next s)
    (hs : s.phase.inRun = true) : s.outCount ≤ n ∧ s.inPos ≤ l := by
  have hb : CountersBounded s :=
    seqSteps_keeps (fun _ _ => seqStep_keeps_countersBounded) (start_countersBounded l n u) h
  obtain ⟨-, rfl, rfl⟩ := seqSteps_start_keeps h
  have hp : s.phase ≠ .idle := by
    intro hp
    simp [hp, Phase.inRun] at hs
  exact ⟨hb.outBound hp, hb.inBound hp⟩

/-- In RUN a read shows a state in RUN that the running decode comes to from its START. -/
theorem shownState_reached (k : Nat) {s : State} (hs : s.phase.inRun = true) :
    ∃ j, seqSteps j (start s.inLen s.targetLen s) = .next (shownState k s) ∧ (shownState k s).phase.inRun = true := by
  rw [shownState_of_inRun k hs]
  obtain ⟨j, -, hj, hr⟩ := intermediate_reached k (s := start s.inLen s.targetLen s) rfl
  exact ⟨j, hj, hr⟩

/-- What a read shows in RUN is within the lengths. -/
theorem shownState_counters_le (k : Nat) {s : State} (hs : s.phase.inRun = true) :
    (shownState k s).outCount ≤ s.targetLen ∧ (shownState k s).inPos ≤ s.inLen := by
  obtain ⟨j, hj, hr⟩ := shownState_reached k hs
  exact seqSteps_start_counters_le hj hr

/-- What a read shows is a number of its register's width. -/
theorem shownState_width (k : Nat) {s : State} (hw : WidthInv s) :
    (shownState k s).outCount < 2 ^ s.params.lenw ∧ (shownState k s).inPos < 2 ^ s.params.inw := by
  cases hr : s.phase.inRun with
  | false =>
    rw [shownState_of_not_inRun k hr]
    exact ⟨hw.outCount, hw.inPos⟩
  | true =>
    obtain ⟨hout, hin⟩ := shownState_counters_le k hr
    exact ⟨hout.trans_lt hw.targetLen, hin.trans_lt hw.inLen⟩

/-- A decode that restarts with its own operands comes back, in as many steps, to the counters it has. -/
theorem restart_reaches_counters {u s : State} {l n j : Nat} (h : seqSteps j (start l n u) = .next s) :
    ∃ t, seqSteps j (start s.inLen s.targetLen s) = .next t ∧ SameDecode s t := by
  obtain ⟨hcs, rfl, rfl⟩ := seqSteps_start_keeps h
  exact (start_sameDecode (t := s) s.targetLen fun a _ => by rw [hcs]).seqSteps h

theorem shownState_of_seqSteps {j : Nat} {s t : State} (hs : s.phase.inRun = true)
    (h : seqSteps j (start s.inLen s.targetLen s) = .next t) (ht : t.phase.inRun = true) : shownState j s = t :=
  (shownState_of_inRun j hs).trans (intermediate_of_seqSteps h ht)

/-- Settles O41: the states shown are those reached from START; the current one is reached again up to what START leaves
unspecified, which `SameDecode` says cannot be told from the counters. -/
theorem countersInRunShowSomeMoment : Obligations.CountersInRunShowSomeMoment := by
  intro s hs
  refine ⟨fun k => ?_, fun j t h ht => ?_, fun u l n j h => ?_, fun _ k => ?_⟩
  · obtain ⟨j, hj, hr⟩ := shownState_reached k hs
    exact ⟨j, _, hj, hr, rfl, rfl⟩
  · simp only [hostRead, shownState_of_seqSteps hs h ht, and_self]
  · obtain ⟨t, ht, same⟩ := restart_reaches_counters h
    simp only [hostRead, shownState_of_seqSteps hs ht (same.phase ▸ hs), same.outCount, same.inPos, and_self]
  · obtain ⟨hout, hin⟩ := shownState_counters_le k hs
    exact ⟨_, _, rfl, hout, rfl, hin⟩

/-- STATUS as a number: ERR above STATE (R34). -/
theorem statusWord_eq (s : State) : statusWord s = 4 * (errCode s.err).toNat + (statusState s.phase).toNat := by
  have h := (statusState s.phase).isLt
  rw [statusWord, BitVec.toNat_append, ← Nat.shiftLeft_add_eq_or_of_lt h, Nat.shiftLeft_eq]
  omega

theorem statusWord_fields (s : State) :
    statusWord s < 16 ∧ statusWord s % 4 = (statusState s.phase).toNat ∧ statusWord s / 4 = (errCode s.err).toNat := by
  have hstate := (statusState s.phase).isLt
  have herr := (errCode s.err).isLt
  rw [statusWord_eq]
  omega

/-- The codes of STATUS.STATE (R34). -/
theorem statusState_codes (p : Phase) :
    ((statusState p).toNat = 0 ↔ p = .idle) ∧
    ((statusState p).toNat = 1 ↔ p ∈ [Phase.query, .lit, .mB0, .mB1, .mChk, .copy]) ∧
    ((statusState p).toNat = 2 ↔ p = .done) ∧
    ((statusState p).toNat = 3 ↔ p = .error) := by
  cases p <;> decide

/-- The codes of STATUS.ERR (R129). -/
theorem errCode_codes (e : Option EngineError) :
    ((errCode e).toNat = 0 ↔ e = none) ∧
    ((errCode e).toNat = 1 ↔ e = some .malformedInput) ∧
    ((errCode e).toNat = 2 ↔ e = some .invalidBackRef) := by
  match e with
  | none | some .malformedInput | some .invalidBackRef => decide

theorem statusWord_hardReset (s : State) : statusWord (hardReset s) = 0 := by
  simp [statusWord, statusState, errCode]

/-- Settles O42: STATUS is the pair of its two codes, and `err` is latched in ERROR only. -/
theorem statusFields : Obligations.StatusFields := by
  refine ⟨fun s k => congrArg Except.ok (statusWord_hardReset s), fun s => ?_, fun s k hi => ?_⟩
  · simp only [doneLine, errorLine, decide_eq_true_eq, and_self]
  · obtain ⟨hlt, hstate, herr⟩ := statusWord_fields s
    obtain ⟨idle, run, done, error⟩ := statusState_codes s.phase
    obtain ⟨ok, malformed, backRef⟩ := errCode_codes s.err
    refine ⟨statusWord s, rfl, hlt, ?_⟩
    rw [hstate, herr]
    exact ⟨idle, run, done, error, ok, malformed, backRef, (not_congr ok).trans (hi.errIff.trans error.symm)⟩

/-- Every register fits a host register (R33). -/
theorem two_pow_le_hostw (p : Config.Params) : 2 ^ p.lenw ≤ 2 ^ p.hostw ∧ 2 ^ p.inw ≤ 2 ^ p.hostw ∧ 2 ^ 32 ≤ 2 ^ p.hostw := by
  unfold Config.Params.hostw
  exact ⟨Nat.pow_le_pow_right (by decide) (by omega), Nat.pow_le_pow_right (by decide) (by omega),
    Nat.pow_le_pow_right (by decide) (by omega)⟩

/-- Every read is a number of the host registers' width, whatever moment it shows. -/
theorem hostRead_lt {s : State} {k n w : Nat} (hw : WidthInv s) (h : hostRead k n s = .ok w) : w < 2 ^ s.params.hostw := by
  obtain ⟨lenw, inw, word⟩ := two_pow_le_hostw s.params
  obtain ⟨hout, hin⟩ := shownState_width k hw
  unfold hostRead at h
  split at h <;> cases h
  · exact Nat.two_pow_pos _
  · have hlt := (statusWord_fields s).1
    omega
  · exact hw.targetLenReg.trans_le lenw
  · exact hw.inLenReg.trans_le inw
  · exact hout.trans_le lenw
  · exact hin.trans_le inw

/-- Settles O40: the register file row by row; the width of a read is that of its register. -/
theorem hostRegisterFile : Obligations.HostRegisterFile := by
  intro s v k
  refine ⟨rfl, rfl, ⟨_, rfl⟩, ⟨_, rfl⟩, fun hr => ?_, fun hv hr => ⟨?_, rfl, rfl⟩, fun hv => ?_, ⟨_, rfl, rfl, rfl⟩,
    ⟨_, rfl, rfl, rfl⟩, rfl, rfl, rfl, fun _ hw n w => hostRead_lt hw,
    congrArg Except.ok (statusWord_hardReset s), rfl, rfl⟩
  · simp only [hostRead, shownState_of_not_inRun k hr, and_self]
  · simp [hostStep, hostWrite, startCommand, hv, hr]
  · simp [hostStep, hostWrite, hv]

/-- A number above 5 is no host register (U17). -/
theorem noSuchHostRegister {n : Nat} (h : 5 < n) (v k : Nat) (s : State) :
    hostWrite n v s = .refused .noSuchHostRegister ∧ hostRead k n s = .error .noSuchHostRegister := by
  obtain ⟨m, rfl⟩ := Nat.exists_eq_add_of_lt h
  rw [show 5 + m + 1 = m + 6 by omega]
  exact ⟨rfl, rfl⟩

/-- Settles O44: the two tests before a write of `CS`, and the registers that exist. -/
theorem hostAccessesOutsideModelRefused : Obligations.HostAccessesOutsideModelRefused := by
  refine ⟨fun s a b hr => ?_, fun s a b hr ha => ?_, fun s a b hr ha => ?_, fun s n v k hn => noSuchHostRegister hn v k s⟩
  all_goals unfold hostStep hostWriteStream
  · simp [hr]
  · simp [hr, ha]
  · simp [hr, Nat.not_le.2 ha]

end Sys2Proof.Machine
end

section
/-! SUPPORT. The three address spaces (20_memory.md R40 to R58): the Window's two accesses, what the engine leaves to the host, the
end of the stream, and when the host sees the output. -/

namespace Sys2Proof.Machine

/-- Settles O21: one write of the Window, which `EngineInv` keeps canonical. -/
theorem winWriteWritesOneSlot : Obligations.WinWriteWritesOneSlot := fun s c hi =>
  ⟨winSlot_winWrite hi.winWf c, BitVec.toNat_add s.pos 1, rfl, rfl, rfl⟩

/-- The difference of two slots as a number: "mod 4096" (R45). -/
theorem slot_sub_eq (a b : Slot) : a - b = BitVec.ofNat 12 ((a.toNat + 4096 - b.toNat) % 4096) := by
  bv_omega

/-- `WinRead` of a distance that leads from `pos` to a slot reads this slot (R45). -/
theorem winRead_pos_sub (s : State) (slot : Slot) : winRead s (s.pos - slot) = winSlot s slot :=
  congrArg (winSlot s) (sub_sub_cancel s.pos slot)

/-- The slot `d` writes back is that of the output byte `d` positions back (R17). -/
theorem mirrorSlot_back {s : State} (h : OutputWf s) {d : Nat} (hd : d ≤ s.outCount) :
    BitVec.ofNat 12 (1 + (s.outCount - d)) = s.pos - BitVec.ofNat 12 d := by
  have hsum : 1 + (s.outCount - d) + d = 1 + s.outCount := by omega
  rw [eq_sub_iff_add_eq, ← BitVec.ofNat_add, hsum, mirrorSlot_outCount h]

/-- Each of the last 4096 output bytes is what `WinRead` of its distance reads. -/
theorem OutputMirrored.read_out_back {s : State} (hwf : OutputWf s) (h : OutputMirrored s) {d : Nat} (hpos : 1 ≤ d)
    (hwin : d ≤ 4096) (hd : d ≤ s.outCount) :
    Memory.read .out s.out (s.outCount - d) = some (winRead s (BitVec.ofNat 12 d)) := by
  rw [h.mirror _ (by omega) (by omega), mirrorSlot_back hwf hd, winRead]

/-- Settles O22: the two forms differ by `pos` minus the slot, and the byte read is the mirror of an output byte. -/
theorem winReadIsWinSlot : Obligations.WinReadIsWinSlot := by
  refine ⟨fun s d => ?_, fun s slot => ?_, fun s d hi hw hp hpos hwin hd => ?_⟩
  · rw [← slot_sub_eq, winRead]
  · rw [← slot_sub_eq, winRead_pos_sub]
  · exact (windowInv_iff.1 hw hp).read_out_back (hi.outputWf hp) hpos hwin hd

/-- Two states with the same stream, lengths and staging registers. -/
structure SameInputs (s t : State) : Prop where
  cs : t.cs = s.cs
  inLen : t.inLen = s.inLen
  targetLen : t.targetLen = s.targetLen
  targetLenReg : t.targetLenReg = s.targetLenReg
  inLenReg : t.inLenReg = s.inLenReg

theorem SameInputs.refl (s : State) : SameInputs s s := ⟨rfl, rfl, rfl, rfl, rfl⟩

theorem SameInputs.trans_seqStep {s t u : State} (h : SameInputs s t) (hu : seqStep t = .next u) : SameInputs s u := by
  obtain ⟨hcs, hInLen, hTargetLen, hTargetReg, hInReg, -⟩ := seqStep_keeps hu
  exact ⟨hcs.trans h.cs, hInLen.trans h.inLen, hTargetLen.trans h.targetLen, hTargetReg.trans h.targetLenReg,
    hInReg.trans h.inLenReg⟩

/-- Settles O36: a step of the engine alone is a run of the phase machine, whose single steps write none of these. -/
theorem engineNeverWritesStream : Obligations.EngineNeverWritesStream := by
  intro s t hs h
  obtain ⟨n, e⟩ := step_alone_eq_seqSteps hs
  have same : SameInputs s t := seqSteps_keeps (fun _ _ => SameInputs.trans_seqStep) (SameInputs.refl s) (e ▸ h)
  exact ⟨same.cs, same.inLen, same.targetLen, same.targetLenReg, same.inLenReg⟩

/-- Settles O16: every instruction begins with a StreamRead. -/
theorem streamEndTakesMalformedInput : Obligations.StreamEndTakesMalformedInput := by
  intro s i h
  cases i with
  | ctl f => exact congrArg _ (consume_of_le h)
  | lit c => exact congrArg _ (consume_of_le h)
  | matchRef l p => exact congrArg _ (consume_of_le h)

/-- A host read of `OUT` has a value in DONE and below the target length only (R58). -/
theorem hostReadOut_eq_none {a : Nat} {s : State} (h : s.phase ≠ .done ∨ s.targetLen ≤ a) : hostReadOut a s = none :=
  if_neg fun ⟨hp, ha⟩ => h.elim (fun hne => hne hp) (Nat.not_le_of_lt ha)

theorem decodeResult_error {s : State} (h : s.phase = .error) : decodeResult s = s.err.map DecodeResult.err := by
  unfold decodeResult
  rw [h]

/-- Settles O45: both tests of a host read of `OUT`, and the result in ERROR. -/
theorem outputHiddenOutsideDone : Obligations.OutputHiddenOutsideDone := fun _ _ =>
  ⟨fun hp => hostReadOut_eq_none (.inl hp), fun ha => hostReadOut_eq_none (.inr ha), decodeResult_error⟩

end Sys2Proof.Machine
end

section
/-! SUPPORT. The decoder and the encoder undo each other, in the stream and in the opcode table's logical words (30_encoding.md R60 to
R68), and the bytes that the assembler gives (R74). -/

namespace Sys2Proof.Machine

/-- R68: no encoding is illegal. -/
@[simp] theorem wellFormed_eq_true (i : Instr) : i.wellFormed = true := by cases i <;> rfl

/-- The decoder gives back what the encoder wrote, and leaves what follows. -/
theorem decode_encode (i : Instr) (rest : List Byte) : decode i.role (encode i ++ rest) = .ok (i, rest) := by
  cases i with
  | ctl f => rfl
  | lit c => rfl
  | matchRef l p =>
    simp only [Instr.role, encode, List.cons_append, List.nil_append, decode, rawLengthOf_matchByte0,
      matchPositionOf_matchBytes]

/-- What decodes is the encoding of what it decodes to, in the role of that instruction. -/
theorem eq_encode_of_decode {r : Role} {bytes rest : List Byte} {i : Instr} (h : decode r bytes = .ok (i, rest)) :
    i.role = r ∧ bytes = encode i ++ rest := by
  unfold decode at h
  split at h <;> cases h
  case h_1 => exact ⟨rfl, rfl⟩
  case h_3 => exact ⟨rfl, rfl⟩
  case h_5 =>
    exact ⟨rfl, by simp only [encode, matchByte0_of_pair, matchByte1_of_pair, List.cons_append, List.nil_append]⟩

/-- Bytes after those that decode change nothing but what is left. -/
theorem decode_append {r : Role} {bytes rest : List Byte} {i : Instr} (h : decode r bytes = .ok (i, rest)) (more : List Byte) :
    decode r (bytes ++ more) = .ok (i, rest ++ more) := by
  obtain ⟨rfl, rfl⟩ := eq_encode_of_decode h
  rw [List.append_assoc, decode_encode]

/-- Neither byte of a pair reaches into the other, nor into the flag above them. -/
theorem tableWordBytes_pair (b0 b1 : Byte) :
    tableWordBytes 17 (256 * b0.toNat + b1.toNat) = some (.matchPair, [b0, b1]) := by
  have flag : (256 * b0.toNat + b1.toNat).testBit 16 = false := Nat.testBit_lt_two_pow (by omega)
  have high : (256 * b0.toNat + b1.toNat) / 256 = b0.toNat := by omega
  have low : BitVec.ofNat 8 (256 * b0.toNat + b1.toNat) = b1 := by bv_omega
  simp [tableWordBytes, flag, high, low]

/-- A literal's logical word is its byte below a flag of 1. -/
theorem tableWordBytes_literal (c : Byte) : tableWordBytes 9 (256 + c.toNat) = some (.literal, [c]) := by
  have flag : (256 + c.toNat).testBit 8 = true := by
    rw [show 256 = 2 ^ 8 from rfl, Nat.testBit_two_pow_add_eq, Nat.testBit_lt_two_pow c.isLt]; rfl
  have low : BitVec.ofNat 8 (256 + c.toNat) = c := by bv_omega
  simp [tableWordBytes, flag, low]

/-- The table's logical word of an instruction holds its role and its stream bytes (R67). -/
theorem tableWordBytes_encodeLogical (i : Instr) :
    tableWordBytes i.logicalBits (encodeLogical i) = some (i.role, encode i) := by
  cases i with
  | ctl f => simp [tableWordBytes, Instr.logicalBits, encodeLogical, Instr.role, encode]
  | lit c => exact tableWordBytes_literal c
  | matchRef l p => exact tableWordBytes_pair (matchByte0 l p) (matchByte1 p)

/-- A table word decodes to what the decoder reads from its bytes in its role. -/
theorem decodeTableWord_eq_some_iff {nbits w : Nat} {i : Instr} :
    decodeTableWord nbits w = some i ↔
      ∃ r bytes rest, tableWordBytes nbits w = some (r, bytes) ∧ decode r bytes = .ok (i, rest) := by
  unfold decodeTableWord
  constructor
  · intro h
    split at h
    · cases h
    · rename_i r bytes hb
      split at h
      · rename_i j rest hd
        cases h
        exact ⟨r, bytes, rest, hb, hd⟩
      · cases h
  · rintro ⟨r, bytes, rest, hb, hd⟩
    simp only [hb, hd]

/-- Settles O1: the decoder undoes the encoder, the encoder the decoder, and a logical word holds the encoder's bytes. -/
theorem decodeEncodeAgree : Obligations.DecodeEncodeAgree := by
  refine ⟨fun i rest _ => decode_encode i rest, fun r bytes rest i h => ?_, fun i _ => ?_⟩
  · obtain ⟨hr, hb⟩ := eq_encode_of_decode h
    exact ⟨hr, wellFormed_eq_true i, hb⟩
  · have hd : decode i.role (encode i) = .ok (i, []) := by simpa using decode_encode i []
    exact decodeTableWord_eq_some_iff.2 ⟨_, _, _, tableWordBytes_encodeLogical i, hd⟩

/-- Settles O2: each clause is a row of the decoder. -/
theorem everyByteDecodes : Obligations.EveryByteDecodes :=
  ⟨fun _ _ => rfl, fun _ _ => rfl, fun b0 b1 _ => ⟨rawLengthOf b0, matchPositionOf b0 b1, rfl⟩, rfl, rfl, rfl, fun _ => rfl⟩

/-- Settles O3: the decoder evaluated on each word. -/
theorem writtenWordsDecode : Obligations.WrittenWordsDecode := by
  unfold Obligations.WrittenWordsDecode
  decide

/-- The first byte of a pair, on numbers: of `raw_length` only its four bits come in, and the position must have no more than twelve. -/
theorem matchByte0_ofNat (m : Nat) {p : Nat} (hp : p < 4096) :
    matchByte0 (BitVec.ofNat 4 m) (BitVec.ofNat 12 p) = BitVec.ofNat 8 ((m <<< 4) ||| (p >>> 8)) := by
  have hpos : (BitVec.ofNat 12 p >>> 8).setWidth 8 = BitVec.ofNat 8 (p >>> 8) := by
    apply BitVec.eq_of_toNat_eq
    simp only [BitVec.toNat_setWidth, BitVec.toNat_ushiftRight, BitVec.toNat_ofNat, Nat.mod_eq_of_lt hp]
  have hlen : (BitVec.ofNat 4 m).setWidth 8 <<< 4 = BitVec.ofNat 8 (m <<< 4) := by
    apply BitVec.eq_of_toNat_eq
    simp only [BitVec.toNat_shiftLeft, BitVec.toNat_setWidth, BitVec.toNat_ofNat, Nat.shiftLeft_eq]
    omega
  rw [matchByte0, hpos, hlen, BitVec.ofNat_or]

/-- Settles O5: the two bytes of the line's token, on its numbers. -/
theorem assembledMatchBytes : Obligations.AssembledMatchBytes := by
  intro pos len h
  simp only [AsmLine.inRange, Bool.and_eq_true, decide_eq_true_eq] at h
  obtain ⟨⟨hpos, -⟩, -⟩ := h
  have low : matchByte1 (BitVec.ofNat 12 pos) = BitVec.ofNat 8 pos := BitVec.setWidth_ofNat_of_le (by decide) pos
  exact ⟨_, _, rfl, by rw [encode, matchByte0_ofNat _ hpos, low]⟩

/-- A shifted 1 has its one bit at the shift. -/
theorem getLsbD_one_shiftLeft (k j : Nat) : (1#8 <<< k).getLsbD j = true ↔ j = k ∧ k < 8 := by
  rw [BitVec.getLsbD_shiftLeft, BitVec.getLsbD_one]
  simp only [Bool.and_eq_true, Bool.not_eq_true', decide_eq_true_eq, decide_eq_false_iff_not]
  omega

/-- The first token's flag stands at bit `k`, those of the others in the byte of the rest. -/
theorem getLsbD_controlBits_cons (k : Nat) (t : Instr) (ts : List Instr) (j : Nat) :
    (controlBits k (t :: ts)).getLsbD j = true ↔
      (j = k ∧ k < 8) ∧ (∃ c, t = .lit c) ∨ (controlBits (k + 1) ts).getLsbD j = true := by
  cases t with
  | ctl f => simp [controlBits]
  | lit c => rw [controlBits, BitVec.getLsbD_or, Bool.or_eq_true, getLsbD_one_shiftLeft]; simp
  | matchRef l p => simp [controlBits]

/-- From bit `k` on, a bit of the CONTROL byte is set exactly when the token in its place is a literal. -/
theorem getLsbD_controlBits (k : Nat) (ts : List Instr) (j : Nat) :
    (controlBits k ts).getLsbD j = true ↔ k ≤ j ∧ j < 8 ∧ ∃ c, ts[j - k]? = some (.lit c) := by
  induction ts generalizing k with
  | nil => simp [controlBits]
  | cons t ts ih =>
    rw [getLsbD_controlBits_cons, ih]
    rcases lt_trichotomy j k with hlt | rfl | hgt
    · simp [hlt.ne, hlt.not_ge, show ¬ k + 1 ≤ j by omega]
    · simp
    · have hidx : j - k = j - (k + 1) + 1 := by omega
      simp [hidx, hgt.ne', hgt.le, Nat.succ_le_of_lt hgt]

/-- Settles O6: bit `k` of the byte that begins at bit 0. -/
theorem controlByteMarksLiterals : Obligations.ControlByteMarksLiterals := by
  intro group k _ hk
  rw [getLsbD_controlBits]
  simp [hk]

end Sys2Proof.Machine
end

section
/-! SUPPORT. Where an instruction begins (30_encoding.md R60), what is fetched there, and the model's own loader: a placed token is read
back at the cursor (log 12, log 13). -/

namespace Sys2Proof.Machine

/-- The role of the next byte is that of the phase; a CONTROL byte wants output and a reload besides (R60). -/
theorem fetchRole_eq_some_iff {s : State} {r : Role} :
    fetchRole s = some r ↔
      s.phase = rolePhase r ∧ (r = .control → s.outCount ≠ s.targetLen ∧ s.mask = Config.MASK_RELOAD) := by
  refine ⟨phase_of_fetchRole, fun ⟨hp, hc⟩ => ?_⟩
  cases r with
  | control => simp only [fetchRole, hp, rolePhase, hc rfl, ne_eq, not_false_eq_true, and_self, if_true]
  | literal => simp only [fetchRole, hp, rolePhase]
  | matchPair => simp only [fetchRole, hp, rolePhase]

/-- Settles O27: the three roles of `fetchRole_eq_some_iff`. -/
theorem roleIsDecidedByState : Obligations.RoleIsDecidedByState := fun s => by
  simp [fetchRole_eq_some_iff, rolePhase]

/-- Settles O25: the fetch decodes the bytes at the cursor, and a step runs what was fetched. -/
theorem stepRunsDecodedInstruction : Obligations.StepRunsDecodedInstruction := by
  intro s r i rest hs hr hd
  have hf : fetch s = some i := by simp only [fetch, hr, hd]
  simp only [step, hs, hf]

/-- Placing bytes leaves what lies below them. -/
theorem read_placeBytes_of_lt {m : Memory} (h : Memory.wf .cs m = true) {a x : Nat} (hx : x < a) (bs : List Byte) :
    Memory.read .cs (placeBytes m a bs) x = Memory.read .cs m x := by
  induction bs generalizing m a with
  | nil => rfl
  | cons b bs ih => rw [placeBytes, ih (Memory.wf_write h a b) (by omega), Memory.read_write h, if_neg (by omega)]

/-- The bytes placed from an address on are read there. -/
theorem read_placeBytes {m : Memory} (h : Memory.wf .cs m = true) (a : Nat) {bs : List Byte} {j : Nat} (hj : j < bs.length) :
    Memory.read .cs (placeBytes m a bs) (a + j) = some bs[j] := by
  induction bs generalizing m a j with
  | nil => cases hj
  | cons b bs ih =>
    have hw := Memory.wf_write h a b
    cases j with
    | zero => exact (read_placeBytes_of_lt hw (Nat.lt_succ_self a) bs).trans ((Memory.read_write h a b a).trans (if_pos rfl))
    | succ j =>
      rw [placeBytes, show a + (j + 1) = a + 1 + j by omega]
      exact ih hw (a + 1) (Nat.lt_of_succ_lt_succ hj)

/-- Bytes that stand in the stream from an address on come first in what is fetched there. -/
theorem streamBytes_eq_append {s : State} {bs : List Byte} {a : Nat} (hl : a + bs.length ≤ s.inLen)
    (hr : ∀ j (hj : j < bs.length), Memory.read .cs s.cs (a + j) = some bs[j]) (n : Nat) :
    streamBytes s (bs.length + n) a = bs ++ streamBytes s n (a + bs.length) := by
  induction bs generalizing a with
  | nil => simp
  | cons b bs ih =>
    rw [List.length_cons] at hl ⊢
    have first : Memory.read .cs s.cs a = some b := hr 0 (Nat.succ_pos _)
    have others := ih (a := a + 1) (by omega) fun j hj => by
      rw [show a + 1 + j = a + (j + 1) by omega]
      exact hr (j + 1) (Nat.succ_lt_succ hj)
    rw [show bs.length + 1 + n = bs.length + n + 1 by omega, streamBytes, if_pos (by omega), first]
    simp only [others, List.cons_append, show a + 1 + bs.length = a + (bs.length + 1) by omega]

theorem placeToken_schedule (r : Role) (bytes : List Byte) (s : State) : (placeToken r bytes s).schedule = [] := rfl

/-- A placed token stands in the stream at the cursor, whatever follows it. -/
theorem streamBytes_placeToken {s : State} (h : Memory.wf .cs s.cs = true) (r : Role) (bytes : List Byte) (n : Nat) :
    ∃ more, streamBytes (placeToken r bytes s) (bytes.length + n) (placeToken r bytes s).inPos = bytes ++ more := by
  have long : (placeToken r bytes s).inPos + bytes.length ≤ (placeToken r bytes s).inLen := by
    simp only [placeToken]
    split <;> omega
  exact ⟨_, streamBytes_eq_append long (fun j hj => read_placeBytes h _ hj) n⟩

/-- A token is placed where its role is due. -/
theorem fetchRole_placeToken (r : Role) (bytes : List Byte) (s : State) : fetchRole (placeToken r bytes s) = some r := by
  refine fetchRole_eq_some_iff.2 ⟨rfl, fun hr => ⟨?_, if_pos hr⟩⟩
  simp only [placeToken]
  split <;> omega

/-- A table word holds at most two stream bytes. -/
theorem length_le_of_tableWordBytes {nbits w : Nat} {r : Role} {bytes : List Byte}
    (h : tableWordBytes nbits w = some (r, bytes)) : bytes.length ≤ 2 := by
  unfold tableWordBytes at h
  split_ifs at h <;> cases h <;> simp

/-- Settles O28: the placed bytes are read back at the cursor, in their role, with no other move due. -/
theorem placedWordRunsNext : Obligations.PlacedWordRunsNext := by
  intro s nbits w i hwf h
  obtain ⟨r, bytes, rest, hb, hd⟩ := decodeTableWord_eq_some_iff.1 h
  have placed : s.withFetchWord nbits w = placeToken r bytes s := by simp only [State.withFetchWord, hb]
  obtain ⟨more, fetched⟩ := streamBytes_placeToken hwf r bytes (2 - bytes.length)
  rw [Nat.add_sub_cancel' (length_le_of_tableWordBytes hb)] at fetched
  rw [placed]
  exact stepRunsDecodedInstruction _ r i (rest ++ more) (placeToken_schedule r bytes s) (fetchRole_placeToken r bytes s)
    (fetched ▸ decode_append hd more)

end Sys2Proof.Machine
end

section
/-! SUPPORT. R114's program depends on no byte of the stream but those it reads: each of its parts, run on any stream that begins with
the bytes up to its cursor, gives the same answer (30_encoding.md R70). -/

namespace Sys2Proof.Machine

/-- A part of the program of R114, as a function of the stream, that begins with the cursor at `k` and ends with it at `pos a`, `a`
being its answer: it moves the cursor within the stream, never back, and it gives the same answer on every stream that begins with
the bytes before the cursor's last place. -/
def ReadsToCursor {α : Type} (pos : α → Nat) (k : Nat) (f : List Byte → Except DecodeFault α) : Prop :=
  ∀ cs a, f cs = .ok a → k ≤ cs.length →
    k ≤ pos a ∧ pos a ≤ cs.length ∧ ∀ cs', cs.take (pos a) <+: cs' → f cs' = .ok a

/-- What reads nothing and leaves the cursor where it is. -/
theorem ReadsToCursor.const {α : Type} {pos : α → Nat} {k : Nat} {x : Except DecodeFault α} (h : ∀ a, x = .ok a → pos a = k) :
    ReadsToCursor pos k fun _ => x := by
  intro cs a hx hk
  have hp := h a hx
  exact ⟨hp.ge, hp.le.trans hk, fun _ _ => hx⟩

/-- One part after another, an error ending the whole. -/
theorem ReadsToCursor.bind {α β : Type} {pos : α → Nat} {pos' : β → Nat} {k : Nat} {f : List Byte → Except DecodeFault α}
    {g : α → List Byte → Except DecodeFault β} (hf : ReadsToCursor pos k f) (hg : ∀ a, ReadsToCursor pos' (pos a) (g a)) :
    ReadsToCursor pos' k fun cs => (f cs).bind fun a => g a cs := by
  intro cs b h hk
  cases ha : f cs with
  | error e => simp only [ha, Except.bind, reduceCtorEq] at h
  | ok a =>
    simp only [ha, Except.bind] at h
    obtain ⟨hka, hlen, hsame⟩ := hf cs a ha hk
    obtain ⟨hab, hlen', hsame'⟩ := hg a cs b h hlen
    refine ⟨hka.trans hab, hlen', fun cs' hp => ?_⟩
    simp only [hsame cs' ((List.take_prefix_take_left hab).trans hp), hsame' cs' hp, Except.bind]

/-- The cursor after a read. -/
abbrev cursorAfterRead (x : Byte × DecodeVars) : Nat := x.2.inPos

theorem refRead_eq_ok_iff {cs : List Byte} {v w : DecodeVars} {b : Byte} :
    refRead cs v = .ok (b, w) ↔ cs[v.inPos]? = some b ∧ w = { v with inPos := v.inPos + 1 } := by
  unfold refRead
  cases cs[v.inPos]? with
  | none => simp
  | some c => simp [eq_comm]

theorem readsToCursor_refRead (v : DecodeVars) : ReadsToCursor cursorAfterRead v.inPos fun cs => refRead cs v := by
  rintro cs ⟨b, w⟩ h -
  obtain ⟨hb, rfl⟩ := refRead_eq_ok_iff.1 h
  obtain ⟨hlt, -⟩ := List.getElem?_eq_some_iff.1 hb
  refine ⟨Nat.le_succ _, hlt, fun cs' ⟨tail, e⟩ => refRead_eq_ok_iff.2 ⟨?_, rfl⟩⟩
  subst e
  simp only [cursorAfterRead]
  rw [List.getElem?_append_left (by simp; omega), List.getElem?_take_of_succ, hb]

/-- The reload as a read and what follows it. -/
theorem refReload_of_due {v : DecodeVars} (h : v.mask = 256) (cs : List Byte) :
    refReload cs v = (refRead cs v).bind fun x => .ok { x.2 with control := x.1.toNat, mask := 1 } := by
  rw [refReload, if_pos h]
  cases refRead cs v <;> rfl

theorem readsToCursor_refReload (v : DecodeVars) : ReadsToCursor DecodeVars.inPos v.inPos fun cs => refReload cs v := by
  by_cases h : v.mask = 256
  · simp only [refReload_of_due h]
    exact (readsToCursor_refRead v).bind fun x => .const fun a e => by cases e; rfl
  · simp only [refReload, if_neg h]
    exact .const fun a e => by cases e; rfl

/-- The MATCH branch after both reads: check, clamp and copy. -/
def refPair (n : Nat) (b0 b1 : Byte) (v : DecodeVars) : Except DecodeFault DecodeVars :=
  let mp := (b0.toNat % 16) * 256 + b1.toNat
  let ml := b0.toNat / 16 + 1
  let d0 := (v.pos + 4096 - mp) % 4096
  let d := if d0 = 0 then 4096 else d0
  if v.out.length < d then .error { kind := .invalidBackRef, final := v }
  else
    let r := n - v.out.length
    let cc := if ml < r then ml + 1 else r
    .ok (refCopy mp cc 0 v)

theorem refMatch_eq_bind (cs : List Byte) (n : Nat) (v : DecodeVars) :
    refMatch cs n v = (refRead cs v).bind fun x => (refRead cs x.2).bind fun y => refPair n x.1 y.1 y.2 := by
  unfold refMatch
  cases refRead cs v with
  | error e => rfl
  | ok x =>
    obtain ⟨b0, w⟩ := x
    simp only [Except.bind]
    cases refRead cs w <;> rfl

@[simp] theorem refCopy_inPos (mp n i : Nat) (v : DecodeVars) : (refCopy mp n i v).inPos = v.inPos := by
  induction n generalizing i v with
  | zero => rfl
  | succ n ih => rw [refCopy, ih, refPut]

/-- A copy reads nothing of the stream. -/
theorem refPair_inPos {n : Nat} {b0 b1 : Byte} {v w : DecodeVars} (h : refPair n b0 b1 v = .ok w) : w.inPos = v.inPos := by
  unfold refPair at h
  extract_lets mp ml d0 d r cc at h
  split_ifs at h
  cases h
  exact refCopy_inPos mp cc 0 v

theorem readsToCursor_refMatch (n : Nat) (v : DecodeVars) :
    ReadsToCursor DecodeVars.inPos v.inPos fun cs => refMatch cs n v := by
  simp only [refMatch_eq_bind]
  exact (readsToCursor_refRead v).bind fun x => (readsToCursor_refRead x.2).bind fun y => .const fun _ => refPair_inPos

/-- The token after the flag, which is the bit under the mask: a literal for 1, a pair for 0. -/
def refFlagged (n : Nat) (v : DecodeVars) (cs : List Byte) : Except DecodeFault DecodeVars :=
  if v.control / v.mask % 2 = 1 then
    (refRead cs { v with mask := v.mask * 2 }).bind fun x => .ok (refPut x.1 x.2)
  else refMatch cs n { v with mask := v.mask * 2 }

theorem refToken_eq_bind (cs : List Byte) (n : Nat) (v : DecodeVars) :
    refToken cs n v = (refReload cs v).bind fun u => refFlagged n u cs := by
  unfold refToken
  cases refReload cs v with
  | error e => rfl
  | ok u =>
    simp only [Except.bind, refFlagged]
    split
    · cases refRead cs { u with mask := u.mask * 2 } <;> rfl
    · rfl

theorem readsToCursor_refFlagged (n : Nat) (v : DecodeVars) : ReadsToCursor DecodeVars.inPos v.inPos (refFlagged n v) := by
  unfold refFlagged
  split
  · exact (readsToCursor_refRead { v with mask := v.mask * 2 }).bind fun x => .const fun a e => by cases e; rfl
  · exact readsToCursor_refMatch n { v with mask := v.mask * 2 }

theorem readsToCursor_refToken (n : Nat) (v : DecodeVars) :
    ReadsToCursor DecodeVars.inPos v.inPos fun cs => refToken cs n v := by
  simp only [refToken_eq_bind]
  exact (readsToCursor_refReload v).bind (readsToCursor_refFlagged n)

/-- With output wanted the loop goes on after a pass. -/
theorem refLoop_succ {n : Nat} {v : DecodeVars} (h : v.out.length < n) (cs : List Byte) (fuel : Nat) :
    refLoop cs n (fuel + 1) v = (refToken cs n v).bind fun w => refLoop cs n fuel w := by
  rw [refLoop, if_pos h]
  cases refToken cs n v <;> rfl

theorem readsToCursor_refLoop (n fuel : Nat) (v : DecodeVars) :
    ReadsToCursor DecodeVars.inPos v.inPos fun cs => refLoop cs n fuel v := by
  induction fuel generalizing v with
  | zero => exact .const fun a e => by cases e; rfl
  | succ fuel ih =>
    by_cases h : v.out.length < n
    · simp only [refLoop_succ h]
      exact (readsToCursor_refToken n v).bind ih
    · simp only [refLoop, if_neg h]
      exact .const fun a e => by cases e; rfl

/-- Settles O59: the three streams begin with the bytes before the decode's final cursor. -/
theorem trailingBytesIgnored : Obligations.TrailingBytesIgnored := by
  intro bytes trailing n v h
  obtain ⟨-, inside, same⟩ := readsToCursor_refLoop n n refInit bytes v h (Nat.zero_le _)
  have read : bytes.take v.inPos <+: bytes := List.take_prefix _ _
  exact ⟨inside, same _ List.prefix_rfl, same _ (List.prefix_append _ _), same _ (read.trans (List.prefix_append _ _))⟩

end Sys2Proof.Machine
end

section
/-! SUPPORT. The FlagCursor (40_flag_cursor.md R81, R82): `CTL` with a byte left and at the end of the stream, and the flag query
with the mask on one bit of the control byte. -/

namespace Sys2Proof.Machine

/-- A mask of value `2 ^ k` is the word with bit `k` alone. -/
theorem mask_eq_twoPow {m : Mask} {k : Nat} (h : m.toNat = 2 ^ k) : m = BitVec.twoPow 9 k := by
  apply BitVec.eq_of_toNat_eq
  rw [BitVec.toNat_twoPow, ← h, Nat.mod_eq_of_lt m.isLt]

/-- R80, R82: the flag under a mask on bit `k` is bit `k` of the control byte. -/
theorem flagBit_twoPow (control : Byte) {k : Nat} (hk : k < 8) : flagBit control (BitVec.twoPow 9 k) = control.getLsbD k := by
  have low : (BitVec.twoPow 9 k).setWidth 8 = BitVec.twoPow 8 k := by
    apply BitVec.eq_of_toNat_eq
    rw [BitVec.toNat_setWidth, BitVec.toNat_twoPow_of_lt (by omega), BitVec.toNat_twoPow]
  have nonzero : BitVec.twoPow 8 k ≠ 0 := by
    intro h
    have := congrArg BitVec.toNat h
    simp [BitVec.toNat_twoPow_of_lt hk] at this
  rw [flagBit, low, BitVec.and_twoPow]
  cases control.getLsbD k
  · rfl
  · exact decide_eq_true nonzero

/-- R82: the mask moves from bit `k` to bit `k + 1`, from 128 to 256 at the end of a group. -/
theorem maskAdvance_twoPow (k : Nat) : maskAdvance (BitVec.twoPow 9 k) = BitVec.twoPow 9 (k + 1) := by
  rw [maskAdvance, BitVec.twoPow_eq, BitVec.twoPow_eq, BitVec.shiftLeft_add]

/-- A mask on a bit of the control byte demands no reload. -/
theorem twoPow_ne_maskReload {k : Nat} (hk : k < 8) : BitVec.twoPow 9 k ≠ Config.MASK_RELOAD := by
  intro h
  have powers : 2 ^ k = 2 ^ 8 := by
    rw [← BitVec.toNat_twoPow_of_lt (show k < 9 by omega), h]
    rfl
  exact hk.ne (Nat.pow_right_injective (le_refl 2) powers)

/-- R112: with output wanted and a flag left in the group, the loop head is the flag query. -/
theorem seqStep_of_flagDue {s : State} (hp : s.phase = .query) (hw : s.outCount ≠ s.targetLen)
    (hm : s.mask ≠ Config.MASK_RELOAD) : seqStep s = .next (flagStep s) := by
  simp only [seqStep, hp, queryStep, if_neg hw, if_neg hm]

/-- Settles O29: the step is the flag query, its mask the one bit `k`. -/
theorem flagQueryTestsLowBitFirst : Obligations.FlagQueryTestsLowBitFirst := by
  intro s k hk hp hw h
  have hm := mask_eq_twoPow h
  refine ⟨flagStep s, seqStep_of_flagDue hp hw (hm ▸ twoPow_ne_maskReload hk), ?_, ?_, rfl⟩
  · rw [flagStep_mask, hm, maskAdvance_twoPow, BitVec.toNat_twoPow_of_lt (by omega)]
  · rw [flagStep_phase, hm, flagBit_twoPow s.control hk]
    rfl

/-- Settles O10: with a byte left the StreamRead moves the cursor, and the load follows. -/
theorem controlLoads : Obligations.ControlLoads := fun _ _ h => congrArg _ (consume_of_lt h)

/-- Settles O18: `CTL` loads the control byte, or takes `MalformedInput` at the end of the stream. -/
theorem controlFrame : Obligations.ControlFrame := by
  intro s t f h
  rcases Nat.lt_or_ge s.inPos s.inLen with hl | hl
  · rw [controlLoads s f hl] at h
    cases h
    simp
  · rw [streamEndTakesMalformedInput s _ hl] at h
    cases h
    simp

end Sys2Proof.Machine
end

section
/-! SUPPORT. The literal-copy datapath (41_literal.md R90, R91): `LIT` with a byte left in the stream, and what it leaves as it was. -/

namespace Sys2Proof.Machine

/-- With a byte left the StreamRead moves the cursor, and the literal is put. -/
theorem exec_lit_of_lt {s : State} (h : s.inPos < s.inLen) (c : Byte) :
    exec (.lit c) s = .next (putLiteral c (advance s)) := congrArg _ (consume_of_lt h)

/-- Settles O11: the fields that `putLiteral` writes after the cursor has moved. -/
theorem literalEmitsAndWrites : Obligations.LiteralEmitsAndWrites := fun _ c h _ => exec_lit_of_lt h c

/-- The output after a literal: its byte at the old `out_count`, the old byte elsewhere. -/
theorem read_out_putLiteral {s : State} (h : Memory.wf .out s.out = true) (c : Byte) (a : Nat) :
    Memory.read .out (putLiteral c s).out a = if a = s.outCount then some c else Memory.read .out s.out a :=
  Memory.read_write h s.outCount c a

/-- The Window after a literal: its byte at the old `pos`, the old byte elsewhere. -/
theorem read_win_putLiteral {s : State} (h : Memory.wf .win s.win = true) (c : Byte) (a : Nat) :
    Memory.read .win (putLiteral c s).win a = if a = s.pos.toNat then some c else Memory.read .win s.win a :=
  Memory.read_write h s.pos.toNat c a

/-- Settles O12: `EngineInv` keeps both memories canonical, so that a read after the write is the written byte or the old one. -/
theorem literalReadsBack : Obligations.LiteralReadsBack := fun s c hi hl _ =>
  ⟨_, exec_lit_of_lt hl c, rfl, rfl, rfl, BitVec.toNat_add s.pos 1, read_out_putLiteral (s := advance s) hi.outWf c,
    winSlot_winWrite (s := advance s) hi.winWf c⟩

/-- Settles O19: `LIT` puts its byte, or takes `MalformedInput` at the end of the stream. -/
theorem literalFrame : Obligations.LiteralFrame := by
  intro s t c hi h
  rcases Nat.lt_or_ge s.inPos s.inLen with hl | hl
  · rw [exec_lit_of_lt hl] at h
    cases h
    have win : ∀ a, a ≠ s.pos.toNat →
        Memory.read .win (putLiteral c (advance s)).win a = Memory.read .win s.win a := fun a ha =>
      (read_win_putLiteral (s := advance s) hi.winWf c a).trans (if_neg ha)
    have out : ∀ a, a ≠ s.outCount →
        Memory.read .out (putLiteral c (advance s)).out a = Memory.read .out s.out a := fun a ha =>
      (read_out_putLiteral (s := advance s) hi.outWf c a).trans (if_neg ha)
    exact ⟨rfl, rfl, rfl, rfl, rfl, rfl, rfl, rfl, rfl, rfl, rfl, rfl, .inl ⟨rfl, rfl⟩, fun _ => rfl, win, out⟩
  · rw [streamEndTakesMalformedInput s _ hl] at h
    cases h
    simp

end Sys2Proof.Machine
end

section
/-! SUPPORT. Literal-only streams (41_literal.md R92; 30_encoding.md R74): both streams are groups of up to eight literals, each behind
a byte that flags them as literals; and the decode of such groups, on R114's program. -/

namespace Sys2Proof.Machine

/-- Groups of eight literals, the last one the shorter, each behind a CONTROL byte that `flags` gives for its literals. -/
def literalGroups (flags : List Byte → Byte) : List Byte → List Byte
  | [] => []
  | c :: cs => flags (c :: cs.take 7) :: (c :: cs.take 7) ++ literalGroups flags (cs.drop 7)
termination_by cs => cs.length
decreasing_by simp

/-- The CONTROL bytes flag every literal of their groups. -/
def MarksLiterals (flags : List Byte → Byte) : Prop :=
  ∀ (group : List Byte) (k : Nat), group.length ≤ 8 → k < group.length → (flags group).getLsbD k = true

/-- R92: the CONTROL byte `0xFF` before every group. -/
def allLiterals (_ : List Byte) : Byte := 0xFF

/-- R74: the CONTROL byte that the assembler gives a group of literals. -/
def packedFlags (group : List Byte) : Byte := controlBits 0 (group.map Instr.lit)

theorem marksLiterals_allLiterals : MarksLiterals allLiterals := fun _ k h8 hk =>
  (BitVec.getLsbD_allOnes (v := 8) (i := k)).trans (decide_eq_true (by omega))

theorem marksLiterals_packedFlags : MarksLiterals packedFlags := by
  intro group k h8 hk
  refine (getLsbD_controlBits 0 _ k).2 ⟨Nat.zero_le k, by omega, group[k], ?_⟩
  simp [hk]

/-- Eight set flags are `0xFF`. -/
theorem MarksLiterals.eq_allLiterals {flags : List Byte → Byte} (h : MarksLiterals flags) {group : List Byte}
    (h8 : group.length = 8) : flags group = allLiterals group := by
  apply BitVec.eq_of_getLsbD_eq
  intro k hk
  rw [h group k h8.le (by omega), marksLiterals_allLiterals group k h8.le (by omega)]

/-- `k` literals of a group stand already: the rest of the group, then the groups after it. -/
theorem literalStream_inside_group (cs : List Byte) {k : Nat} (h1 : 1 ≤ k) (h8 : k ≤ 8) :
    literalStream (k % 8) cs = cs.take (8 - k) ++ literalStream 0 (cs.drop (8 - k)) := by
  induction cs generalizing k with
  | nil => simp [literalStream]
  | cons c cs ih =>
    rcases h8.eq_or_lt with rfl | h8
    · rfl
    · have next : (if k = 7 then 0 else k + 1) = (k + 1) % 8 := by split <;> omega
      rw [Nat.mod_eq_of_lt h8, literalStream, if_neg (by omega), next, ih (by omega) h8,
        show 8 - k = 8 - (k + 1) + 1 by omega]
      rfl

theorem literalStream_eq_literalGroups (bytes : List Byte) : literalStream 0 bytes = literalGroups allLiterals bytes := by
  induction bytes using literalGroups.induct with
  | case1 => simp [literalStream, literalGroups]
  | case2 c cs ih =>
    rw [literalStream, if_pos rfl, literalStream_inside_group cs (k := 1) (by omega) (by omega), ih, literalGroups]
    rfl

/-- The group being filled takes as many of the next tokens as it has places left. -/
theorem packTokens_eq_append (ts : List Instr) {group : List Instr} (h : group.length < 8) :
    packTokens group ts =
      groupBytes (group ++ ts.take (8 - group.length)) ++ packTokens [] (ts.drop (8 - group.length)) := by
  induction ts generalizing group with
  | nil => simp [packTokens, groupBytes]
  | cons t ts ih =>
    rw [packTokens]
    split_ifs with h7
    · simp [h7]
    · have places : 8 - group.length = 8 - (group ++ [t]).length + 1 := by simp; omega
      rw [ih (by simp; omega), places]
      simp

theorem groupBytes_literals (c : Byte) (cs : List Byte) :
    groupBytes ((c :: cs).map Instr.lit) = packedFlags (c :: cs) :: c :: cs := by
  simp [groupBytes, packedFlags, List.flatMap_map, encode]

theorem packTokens_eq_literalGroups (bytes : List Byte) :
    packTokens [] (bytes.map Instr.lit) = literalGroups packedFlags bytes := by
  induction bytes using literalGroups.induct with
  | case1 => simp [packTokens, groupBytes, literalGroups]
  | case2 c cs ih =>
    rw [packTokens_eq_append _ (by simp), literalGroups, ← ih, ← groupBytes_literals]
    simp [List.map_take, List.map_drop]

/-- A byte for each literal and one for each group begun. -/
theorem length_literalGroups (flags : List Byte → Byte) (bytes : List Byte) :
    (literalGroups flags bytes).length = bytes.length + (bytes.length + 7) / 8 := by
  induction bytes using literalGroups.induct with
  | case1 => simp [literalGroups]
  | case2 c cs ih =>
    simp only [literalGroups, List.length_append, List.length_cons, List.length_take, ih, List.length_drop]
    omega

/-- Full groups are the same whatever way their literals are flagged. -/
theorem literalGroups_of_full {flags : List Byte → Byte} (hf : MarksLiterals flags) {bytes : List Byte}
    (h : bytes.length % 8 = 0) : literalGroups flags bytes = literalGroups allLiterals bytes := by
  induction bytes using literalGroups.induct with
  | case1 => simp [literalGroups]
  | case2 c cs ih =>
    rw [List.length_cons] at h
    have full : (c :: cs.take 7).length = 8 := by simp; omega
    rw [literalGroups, literalGroups, hf.eq_allLiterals full, ih (by simp; omega)]

/-- The byte at the cursor is read. -/
theorem refRead_of_drop {stream rest : List Byte} {v : DecodeVars} {b : Byte} (h : stream.drop v.inPos = b :: rest) :
    refRead stream v = .ok (b, { v with inPos := v.inPos + 1 }) := by
  refine refRead_eq_ok_iff.2 ⟨?_, rfl⟩
  rw [← List.head?_drop, h, List.head?_cons]

/-- What is left of a stream after one more byte. -/
theorem drop_succ_of_drop {stream rest : List Byte} {k : Nat} {b : Byte} (h : stream.drop k = b :: rest) :
    stream.drop (k + 1) = rest := by
  rw [← List.tail_drop, h, List.tail_cons]

/-- The variables after a pass that puts a literal. -/
def refLiteral (c : Byte) (v : DecodeVars) : DecodeVars := refPut c { v with mask := v.mask * 2, inPos := v.inPos + 1 }

/-- The variables after a CONTROL byte is loaded. -/
def refLoaded (b : Byte) (v : DecodeVars) : DecodeVars := { v with control := b.toNat, mask := 1, inPos := v.inPos + 1 }

/-- A pass whose flag is 1 puts the byte at the cursor. -/
theorem refToken_of_literal {stream rest : List Byte} {v : DecodeVars} {c : Byte} (n : Nat) (hm : v.mask ≠ 256)
    (hb : v.control / v.mask % 2 = 1) (h : stream.drop v.inPos = c :: rest) :
    refToken stream n v = .ok (refLiteral c v) := by
  have read : refRead stream { v with mask := v.mask * 2 } = _ := refRead_of_drop h
  rw [refToken_eq_bind, refReload, if_neg hm]
  simp only [Except.bind, refFlagged, if_pos hb, read]
  rfl

/-- A pass with a reload due is the pass after the reload. -/
theorem refToken_of_reload {stream rest : List Byte} {v : DecodeVars} {b : Byte} (n : Nat) (hm : v.mask = 256)
    (h : stream.drop v.inPos = b :: rest) : refToken stream n v = refToken stream n (refLoaded b v) := by
  have loaded : refReload stream v = .ok (refLoaded b v) := by
    rw [refReload_of_due hm, refRead_of_drop h]
    rfl
  have noReload : refReload stream (refLoaded b v) = .ok (refLoaded b v) := if_neg (by simp [refLoaded])
  rw [refToken_eq_bind, refToken_eq_bind, loaded, noReload]

/-- With output wanted and a reload due, the loop runs as it does after the reload. -/
theorem refLoop_of_reload {stream rest : List Byte} {n : Nat} {v : DecodeVars} {b : Byte} (hm : v.mask = 256)
    (h : stream.drop v.inPos = b :: rest) (hn : v.out.length < n) (fuel : Nat) :
    refLoop stream n (fuel + 1) v = refLoop stream n (fuel + 1) (refLoaded b v) := by
  rw [refLoop_succ hn, refLoop_succ (v := refLoaded b v) hn, refToken_of_reload n hm h]

/-- From flag `k` on, a pass for each literal whose flag is set. -/
theorem refLoop_of_literals {stream rest : List Byte} {n k : Nat} {flags : Byte} (cs : List Byte) {v : DecodeVars}
    (hm : v.mask = 2 ^ k) (hc : v.control = flags.toNat) (hk : k + cs.length ≤ 8)
    (hf : ∀ j, j < cs.length → flags.getLsbD (k + j) = true) (hs : stream.drop v.inPos = cs ++ rest)
    (hn : v.out.length + cs.length ≤ n) :
    ∃ w : DecodeVars, w.mask = 2 ^ (k + cs.length) ∧ w.out = v.out ++ cs ∧ w.inPos = v.inPos + cs.length ∧
      ∀ fuel, refLoop stream n (cs.length + fuel) v = refLoop stream n fuel w := by
  induction cs generalizing v k with
  | nil => exact ⟨v, by simp [hm]⟩
  | cons c cs ih =>
    rw [List.length_cons] at hk hn
    have noReload : v.mask ≠ 256 := by
      rw [hm]
      exact (Nat.pow_lt_pow_right (by decide) (show k < 8 by omega)).ne
    have flag : v.control / v.mask % 2 = 1 := by
      have := hf 0 (by simp)
      rwa [BitVec.getLsbD, Nat.testBit_eq_decide_div_mod_eq, decide_eq_true_eq, Nat.add_zero, ← hm, ← hc] at this
    obtain ⟨w, wmask, wout, wpos, wloop⟩ := ih (v := refLiteral c v) (k := k + 1)
      (by rw [refLiteral, refPut, hm, Nat.pow_succ]) hc (by omega)
      (fun j hj => by rw [show k + 1 + j = k + (j + 1) by omega]; exact hf (j + 1) (by simpa using hj))
      (drop_succ_of_drop hs) (by simp [refLiteral, refPut]; omega)
    refine ⟨w, by rw [wmask, List.length_cons]; congr 1; omega, by simp [wout, refLiteral, refPut],
      by simp [wpos, refLiteral, refPut]; omega, fun fuel => ?_⟩
    rw [List.length_cons, show cs.length + 1 + fuel = cs.length + fuel + 1 by omega, refLoop_succ (by omega),
      refToken_of_literal n noReload flag hs]
    exact wloop fuel

/-- One group: the reload, then its literals. -/
theorem refLoop_of_group {stream rest : List Byte} {n : Nat} {flags c : Byte} {cs : List Byte} {v : DecodeVars}
    (hm : v.mask = 256) (hk : (c :: cs).length ≤ 8) (hf : ∀ j, j < (c :: cs).length → flags.getLsbD j = true)
    (hs : stream.drop v.inPos = flags :: (c :: cs) ++ rest) (hn : v.out.length + (c :: cs).length ≤ n) :
    ∃ w : DecodeVars, w.mask = 2 ^ (c :: cs).length ∧ w.out = v.out ++ (c :: cs) ∧
      w.inPos = v.inPos + 1 + (c :: cs).length ∧
      ∀ fuel, refLoop stream n ((c :: cs).length + fuel) v = refLoop stream n fuel w := by
  obtain ⟨w, wmask, wout, wpos, wloop⟩ := refLoop_of_literals (c :: cs) (v := refLoaded flags v) (k := 0) rfl rfl
    (by omega) (fun j hj => by rw [Nat.zero_add]; exact hf j hj) (drop_succ_of_drop hs) hn
  refine ⟨w, by rw [wmask, Nat.zero_add], wout, wpos, fun fuel => ?_⟩
  have wanted : v.out.length < n := by rw [List.length_cons] at hn; omega
  rw [← wloop, List.length_cons, show cs.length + 1 + fuel = cs.length + fuel + 1 by omega, refLoop_of_reload hm hs wanted]

/-- All groups, from a reload on: the literals in order, the stream read to its end. -/
theorem refLoop_literalGroups {flags : List Byte → Byte} (hf : MarksLiterals flags) {stream : List Byte} {n : Nat}
    (bytes : List Byte) {v : DecodeVars} (hm : bytes ≠ [] → v.mask = 256)
    (hs : stream.drop v.inPos = literalGroups flags bytes) (hn : v.out.length + bytes.length = n) :
    ∃ w, refLoop stream n bytes.length v = .ok w ∧ w.out = v.out ++ bytes ∧
      w.inPos = v.inPos + (literalGroups flags bytes).length := by
  induction bytes using literalGroups.induct generalizing v with
  | case1 => exact ⟨v, rfl, by simp, by simp [literalGroups]⟩
  | case2 c cs ih =>
    have whole : c :: cs = (c :: cs.take 7) ++ cs.drop 7 := by simp
    have size : (c :: cs).length = (c :: cs.take 7).length + (cs.drop 7).length := by
      rw [← List.length_append, ← whole]
    have small : (c :: cs.take 7).length ≤ 8 := by simp
    rw [literalGroups] at hs ⊢
    obtain ⟨u, umask, uout, upos, uloop⟩ := refLoop_of_group (hm (by simp)) small (fun j => hf _ j small) hs
      (by omega : v.out.length + _ ≤ n)
    have due : cs.drop 7 ≠ [] → u.mask = 256 := by
      intro h
      have more : 7 < cs.length := by simpa using h
      have full : (c :: cs.take 7).length = 8 := by simp; omega
      rw [umask, full]
      rfl
    have left : stream.drop u.inPos = literalGroups flags (cs.drop 7) := by
      rw [upos, Nat.add_assoc, ← List.drop_drop, hs, Nat.add_comm 1]
      simp
    obtain ⟨w, wloop, wout, wpos⟩ := ih due left (by rw [uout, List.length_append]; omega)
    refine ⟨w, by rw [size, uloop, wloop], by rw [wout, uout, List.append_assoc, ← whole], ?_⟩
    rw [wpos, upos, List.length_append, List.length_cons (a := flags _)]
    omega

/-- Groups of flagged literals decode to their literals, and are read whole. -/
theorem refDecode_literalGroups {flags : List Byte → Byte} (hf : MarksLiterals flags) (bytes : List Byte) :
    ∃ v, refDecode (literalGroups flags bytes) bytes.length = .ok v ∧
      v.out = bytes ∧ v.inPos = bytes.length + (bytes.length + 7) / 8 := by
  obtain ⟨v, hv, hout, hpos⟩ := refLoop_literalGroups hf (stream := literalGroups flags bytes) bytes (v := refInit)
    (fun _ => rfl) rfl (Nat.zero_add _)
  exact ⟨v, hv, hout, by rw [hpos, length_literalGroups]; exact Nat.zero_add _⟩

/-- Settles O58: both streams are groups of flagged literals, and where every group is full the flags are the same. -/
theorem literalOnlyStreamsRoundTrip : Obligations.LiteralOnlyStreamsRoundTrip := by
  intro bytes
  rw [literalStream_eq_literalGroups, packTokens_eq_literalGroups]
  exact ⟨⟨length_literalGroups _ bytes, refDecode_literalGroups marksLiterals_allLiterals bytes⟩,
    ⟨length_literalGroups _ bytes, refDecode_literalGroups marksLiterals_packedFlags bytes⟩,
    fun full => (literalGroups_of_full marksLiterals_packedFlags full).symm⟩

end Sys2Proof.Machine
end

section
/-! SUPPORT. The operands of a MATCH as numbers (42_match.md R97 to R102): the bit fields of the pair, the two lengths, the distance
and the verdict on it, the copy count. -/

namespace Sys2Proof.Machine

/-- R97: the three fields as quotient, remainder and sum. -/
theorem toNat_pairFields (b0 b1 : Byte) :
    (rawLengthOf b0).toNat = b0.toNat / 16 ∧ (positionHighOf b0).toNat = b0.toNat % 16 ∧
      (matchPositionOf b0 b1).toNat = (b0.toNat % 16) * 256 + b1.toNat := by
  have high : (positionHighOf b0).toNat = b0.toNat % 16 := by
    have low : b0.toNat &&& 15 = b0.toNat % 16 := Nat.and_two_pow_sub_one_eq_mod _ 4
    rw [positionHighOf, BitVec.toNat_setWidth, BitVec.toNat_and]
    exact (congrArg (· % 16) low).trans (Nat.mod_mod _ 16)
  have shifted : ((positionHighOf b0).setWidth 12 <<< 8).toNat = (b0.toNat % 16) <<< 8 := by
    simp only [BitVec.toNat_shiftLeft, BitVec.toNat_setWidth, high, Nat.shiftLeft_eq]
    omega
  have second : (b1.setWidth 12).toNat = b1.toNat := BitVec.toNat_setWidth_of_le (by decide)
  refine ⟨?_, high, ?_⟩
  · simp only [rawLengthOf, BitVec.toNat_setWidth, BitVec.toNat_ushiftRight, Nat.shiftRight_eq_div_pow]
    omega
  · rw [matchPositionOf, BitVec.toNat_or, shifted, second, ← Nat.shiftLeft_add_eq_or_of_lt b1.isLt, Nat.shiftLeft_eq]

/-- Settles O7: neither sum leaves its five bits. -/
theorem matchLengthNeverWraps : Obligations.MatchLengthNeverWraps := by
  refine ⟨rfl, fun l => ?_⟩
  obtain ⟨hlen, hnominal⟩ := toNat_matchLength l
  have hl := l.isLt
  omega

/-- R102: both branches of the clamp are one minimum. -/
theorem toNat_copyCount (l : BitVec 4) (n t : Nat) :
    (copyCount l n t).toNat = min ((matchLength l).toNat + 1) (n - t) := by
  obtain ⟨hlen, hnominal⟩ := toNat_matchLength l
  have hl := l.isLt
  unfold copyCount budget
  split_ifs with hr
  · omega
  · rw [BitVec.toNat_ofNat]
    omega

/-- Settles O9: each branch is the minimum under the branch's condition. -/
theorem copyCountIsMinimum : Obligations.CopyCountIsMinimum := by
  intro l n t _
  rw [toNat_copyCount]
  omega

/-- R99: the distance modulo 4096, with 0 read as 4096. -/
theorem toNat_distance (pos p : Slot) :
    (distance pos p).toNat =
      if (pos.toNat + 4096 - p.toNat) % 4096 = 0 then 4096 else (pos.toNat + 4096 - p.toNat) % 4096 := by
  have hd : (distance0 pos p).toNat = (pos.toNat + 4096 - p.toNat) % 4096 := by
    unfold distance0
    bv_omega
  unfold distance
  rw [← hd]
  split_ifs with hz hn hn
  · rfl
  · exact absurd (congrArg BitVec.toNat hz) hn
  · exact absurd (BitVec.eq_of_toNat_eq hn) hz
  · exact BitVec.toNat_setWidth_of_le (by decide)

theorem distance_bounds (pos p : Slot) : 1 ≤ (distance pos p).toNat ∧ (distance pos p).toNat ≤ 4096 := by
  rw [toNat_distance]
  split_ifs <;> omega

/-- The distance leads from the source to the write cursor. -/
theorem add_distance (pos p : Slot) : p + BitVec.ofNat 12 (distance pos p).toNat = pos := by
  apply BitVec.eq_of_toNat_eq
  rw [BitVec.toNat_add, BitVec.toNat_ofNat, toNat_distance]
  split_ifs <;> omega

theorem backRefInvalid_eq_false_iff {pos p : Slot} {t : Nat} :
    backRefInvalid pos p t = false ↔ (distance pos p).toNat ≤ t := by
  simp [backRefInvalid]

theorem written_eq_true_iff {s : State} {p : Slot} :
    written s p = true ↔ 4096 ≤ s.outCount ∨ 1 ≤ p.toNat ∧ p.toNat ≤ s.outCount := by
  simp [written]

/-- Settles O8: where `pos = (1 + out_count) mod 4096`, both tests compare the slot with the writes made so far. -/
theorem backReferenceValidity : Obligations.BackReferenceValidity := by
  refine ⟨fun pos p t => ⟨toNat_distance pos p, decide_eq_true_iff⟩, fun s p hpos => ⟨?_, written_eq_true_iff⟩⟩
  rw [backRefInvalid_eq_false_iff, written_eq_true_iff, toNat_distance]
  split_ifs <;> omega

end Sys2Proof.Machine
end

section
/-! SUPPORT. What a copy reads and writes (42_match.md R103 to R108): the byte of each step, the slots and output bytes that a run of
steps writes and those it leaves, and the copied bytes as the first `d` of them repeated. -/

namespace Sys2Proof.Machine

/-- Settles O23: both ends of the distance move by one, and the output only grows. -/
theorem copyKeepsDistance : Obligations.CopyKeepsDistance := fun s _ hv =>
  ⟨distance_succ s.pos s.msrc, backRefInvalid_copyStep hv⟩

/-- A source at the write cursor is 4096 writes back (R99, R108). -/
theorem distance_self (pos : Slot) : (distance pos pos).toNat = 4096 := by
  rw [toNat_distance, if_pos (by omega)]

/-- Settles O24: the slot read is the slot written, and it mirrors the output byte 4096 positions back. -/
theorem copyAtFullDistanceKeepsWindow : Obligations.CopyAtFullDistanceKeepsWindow := by
  intro s hi hw hp hsrc
  have running : s.phase ≠ .idle := by simp [hp]
  have full : 4096 ≤ s.outCount := by
    have valid := backRefInvalid_eq_false_iff.1 (hi.copySource hp)
    rwa [hsrc, distance_self] at valid
  have emitted : Memory.read .out (copyStep s).out s.outCount = some (winSlot s s.pos) := by
    rw [read_out_copyStep hi.outWf, if_pos rfl, hsrc]
  have oldest : Memory.read .out s.out (s.outCount - 4096) = some (winSlot s s.pos) := by
    rw [(windowInv_iff.1 hw running).read_out_back (hi.outputWf running) (by decide) (le_refl 4096) full, winRead]
    exact congrArg (fun slot => some (winSlot s slot)) (BitVec.sub_zero s.pos)
  refine ⟨full, fun slot => ?_, BitVec.toNat_add s.pos 1, ?_, emitted, emitted.trans oldest.symm⟩
  · rw [winSlot_copyStep hi.winWf, hsrc]
    split_ifs with hs
    · rw [hs]
    · rfl
  · rw [copyStep_msrc, copyStep_pos, hsrc]

/-- The byte that the copy step after `i` others reads, emits and writes (R103). -/
def copiedByte (s : State) (i : Nat) : Byte := winSlot (copySteps i s) (s.msrc + BitVec.ofNat 12 i)

/-- The last of `n + 1` copy steps writes its byte to its slot and no other. -/
theorem read_win_copySteps_succ {s : State} (h : Memory.wf .win s.win = true) (n a : Nat) :
    Memory.read .win (copySteps (n + 1) s).win a =
      if a = (s.pos + BitVec.ofNat 12 n).toNat then some (copiedByte s n) else Memory.read .win (copySteps n s).win a := by
  rw [copySteps_last, copyStep_win, Memory.read_write (copySteps_winWf h), copySteps_pos, copySteps_msrc, copiedByte]

/-- The last of `n + 1` copy steps emits its byte and no other. -/
theorem read_out_copySteps_succ {s : State} (h : Memory.wf .out s.out = true) (n a : Nat) :
    Memory.read .out (copySteps (n + 1) s).out a =
      if a = s.outCount + n then some (copiedByte s n) else Memory.read .out (copySteps n s).out a := by
  rw [copySteps_last, read_out_copyStep (copySteps_outWf h), copySteps_outCount, copySteps_msrc, copiedByte]

/-- The slots that `n` copy steps leave as they were. -/
theorem read_win_copySteps_of_ne {s : State} (h : Memory.wf .win s.win = true) {n a : Nat}
    (ha : ∀ i < n, a ≠ (s.pos + BitVec.ofNat 12 i).toNat) :
    Memory.read .win (copySteps n s).win a = Memory.read .win s.win a := by
  induction n with
  | zero => rfl
  | succ n ih =>
    rw [read_win_copySteps_succ h, if_neg (ha n (Nat.lt_succ_self n))]
    exact ih fun i hi => ha i (Nat.lt_succ_of_lt hi)

/-- The output bytes that `n` copy steps leave as they were. -/
theorem read_out_copySteps_of_ne {s : State} (h : Memory.wf .out s.out = true) {n a : Nat}
    (ha : ∀ i < n, a ≠ s.outCount + i) : Memory.read .out (copySteps n s).out a = Memory.read .out s.out a := by
  induction n with
  | zero => rfl
  | succ n ih =>
    rw [read_out_copySteps_succ h, if_neg (ha n (Nat.lt_succ_self n))]
    exact ih fun i hi => ha i (Nat.lt_succ_of_lt hi)

/-- Within one turn of the Window no copy step writes the slot of another. -/
theorem slot_add_ne (pos : Slot) {i j : Nat} (hi : i < 4096) (hj : j < 4096) (h : i ≠ j) :
    (pos + BitVec.ofNat 12 i).toNat ≠ (pos + BitVec.ofNat 12 j).toNat := by
  bv_omega

/-- Every byte copied stands in its slot at the end of the copy. -/
theorem read_win_copySteps {s : State} (h : Memory.wf .win s.win = true) {n i : Nat} (hn : n ≤ 4096) (hi : i < n) :
    Memory.read .win (copySteps n s).win (s.pos + BitVec.ofNat 12 i).toNat = some (copiedByte s i) := by
  induction n with
  | zero => cases hi
  | succ n ih =>
    rw [read_win_copySteps_succ h]
    rcases Nat.lt_succ_iff_lt_or_eq.1 hi with hi | rfl
    · rw [if_neg (slot_add_ne s.pos (by omega) hn hi.ne), ih (by omega) hi]
    · rw [if_pos rfl]

/-- Every byte copied is in the output at the end of the copy. -/
theorem read_out_copySteps {s : State} (h : Memory.wf .out s.out = true) {n i : Nat} (hi : i < n) :
    Memory.read .out (copySteps n s).out (s.outCount + i) = some (copiedByte s i) := by
  induction n with
  | zero => cases hi
  | succ n ih =>
    rw [read_out_copySteps_succ h]
    rcases Nat.lt_succ_iff_lt_or_eq.1 hi with hi | rfl
    · rw [if_neg (by omega), ih hi]
    · rw [if_pos rfl]

theorem winSlot_copySteps {s : State} (h : Memory.wf .win s.win = true) {n i : Nat} (hn : n ≤ 4096) (hi : i < n) :
    winSlot (copySteps n s) (s.pos + BitVec.ofNat 12 i) = copiedByte s i := by
  rw [winSlot, read_win_copySteps h hn hi, Option.getD_some]

/-- A byte from before the copy reached its own output is an old one: fewer than `d` steps have not overwritten its slot. -/
theorem copiedByte_of_lt {s : State} (h : Memory.wf .win s.win = true) {i : Nat} (hi : i < (distance s.pos s.msrc).toNat) :
    copiedByte s i = winSlot s (s.msrc + BitVec.ofNat 12 i) := by
  have hd := distance_bounds s.pos s.msrc
  have ahead := add_distance s.pos s.msrc
  rw [copiedByte, winSlot, winSlot, read_win_copySteps_of_ne h]
  intro j hj
  rw [← ahead, BitVec.add_assoc, ← BitVec.ofNat_add]
  bv_omega

/-- From step `d` on the copy reads what it wrote `d` steps before. -/
theorem copiedByte_add_distance {s : State} (h : Memory.wf .win s.win = true) {i : Nat}
    (hi : (distance s.pos s.msrc).toNat + i ≤ 4096) :
    copiedByte s ((distance s.pos s.msrc).toNat + i) = copiedByte s i := by
  have hd := distance_bounds s.pos s.msrc
  rw [copiedByte, BitVec.ofNat_add, ← BitVec.add_assoc, add_distance]
  exact winSlot_copySteps h hi (by omega)

/-- R104: the bytes copied are the first `d` bytes from the source on, repeated. -/
theorem copiedByte_eq_winSlot_mod {s : State} (h : Memory.wf .win s.win = true) {i : Nat} (hi : i ≤ 4096) :
    copiedByte s i = winSlot s (s.msrc + BitVec.ofNat 12 (i % (distance s.pos s.msrc).toNat)) := by
  have hd := distance_bounds s.pos s.msrc
  induction i using Nat.strong_induction_on with
  | h i ih =>
    rcases Nat.lt_or_ge i (distance s.pos s.msrc).toNat with hlt | hge
    · rw [Nat.mod_eq_of_lt hlt, copiedByte_of_lt h hlt]
    · obtain ⟨k, rfl⟩ := Nat.exists_eq_add_of_le hge
      rw [copiedByte_add_distance h hi, ih k (by omega) (by omega), Nat.add_mod_left]

end Sys2Proof.Machine
end

section
/-! SUPPORT. `MATCH` as a whole (42_match.md R95 to R106): its four ends, by how much of the pair is in the stream and by the verdict
on the back-reference, and from them what it does and what it leaves as it was. -/

namespace Sys2Proof.Machine

/-- Settles O17: the second StreamRead is at the end of the stream. -/
theorem cutPairTakesMalformedInput : Obligations.CutPairTakesMalformedInput := by
  intro s l p h
  have first : s.inPos < s.inLen := by omega
  have second : (latchB0 (matchByte0 l p) (advance s)).inLen ≤ (latchB0 (matchByte0 l p) (advance s)).inPos := h.ge
  simp only [exec, execMatchRef, consume_of_lt first, consume_of_le second]
  rfl

/-- A check that fails takes the error. -/
theorem matchCheck_of_invalid {s : State} (h : backRefInvalid s.pos (matchPositionOf s.b0 s.b1) s.outCount = true) :
    matchCheck s = raise .invalidBackRef s := if_pos h

/-- A check that passes begins the copy. -/
theorem matchCheck_of_valid {s : State} (h : backRefInvalid s.pos (matchPositionOf s.b0 s.b1) s.outCount = false) :
    matchCheck s = { s with
      msrc := matchPositionOf s.b0 s.b1
      cnt := copyCount (rawLengthOf s.b0) s.targetLen s.outCount
      phase := .copy } :=
  if_neg (Bool.eq_false_iff.1 h)

/-- Settles O15: the check is all that follows the two latches. -/
theorem invalidMatchTakesError : Obligations.InvalidMatchTakesError := by
  intro s l p h hv
  have latched := execMatchRef_eq_matchFinish (s := s) (matchByte0 l p) (matchByte1 p) h
  rw [rawLengthOf_matchByte0, matchPositionOf_matchBytes] at latched
  have check : matchCheck (pairLatched (matchByte0 l p) (matchByte1 p) s) =
      raise .invalidBackRef (pairLatched (matchByte0 l p) (matchByte1 p) s) :=
    matchCheck_of_invalid (by simpa [pairLatched] using hv)
  rw [exec, latched, matchFinish, check]
  rfl

/-- A valid `MATCH` is its whole copy. -/
theorem exec_matchRef_of_valid {s : State} {l : BitVec 4} {p : Slot} (h : s.inPos + 2 ≤ s.inLen)
    (hv : backRefInvalid s.pos p s.outCount = false) :
    exec (.matchRef l p) s = .next (copySteps (copyCount l s.targetLen s.outCount).toNat (copyBegun l p s)) :=
  execMatchRef_of_valid h hv

/-- The count runs out with the last byte. -/
theorem copySteps_all_cnt (s : State) : (copySteps s.cnt.toNat s).cnt = 0 := by
  rw [copySteps_cnt, BitVec.ofNat_toNat, BitVec.setWidth_eq]
  exact BitVec.sub_self s.cnt

/-- The last byte of a copy leads back to the loop head (R103). -/
theorem copySteps_all_phase {s : State} (h : 1 ≤ s.cnt.toNat) : (copySteps s.cnt.toNat s).phase = .query := by
  obtain ⟨n, hn⟩ := Nat.exists_eq_add_of_le' h
  have hz := copySteps_all_cnt s
  rw [copySteps_cnt, hn] at hz
  rw [hn, copySteps_phase, if_pos hz]

/-- The `i`-th slot after another, as a number. -/
theorem toNat_slot_add (a : Slot) (i : Nat) : (a + BitVec.ofNat 12 i).toNat = (a.toNat + i) % 4096 := by
  bv_omega

/-- Settles O13: the whole copy, whose count is at least 1 with output wanted. -/
theorem matchCompletes : Obligations.MatchCompletes := by
  intro s l p hl hw hv
  obtain ⟨one_le, -⟩ := copyCount_bounds l hw
  refine ⟨_, exec_matchRef_of_valid hl hv, copySteps_all_phase (s := copyBegun l p s) one_le, copySteps_err _ _,
    copySteps_all_cnt (copyBegun l p s), copySteps_inPos _ _, copySteps_outCount _ _, ?_, ?_, ?_⟩
  · rw [copySteps_pos, toNat_slot_add]
    rfl
  · rw [copySteps_msrc, toNat_slot_add]
    rfl
  · rw [copySteps_b0, copySteps_b1]
    rfl

/-- Settles O14: the copy's bytes are the first `d` repeated, in the output and in their slots; no copy is longer than the Window. -/
theorem matchRepeatsItsSource : Obligations.MatchRepeatsItsSource := by
  intro s t l p hi hl _ hv h i hlt
  rw [exec_matchRef_of_valid hl hv] at h
  cases h
  have short := copyCount_le l s.targetLen s.outCount
  have byte : copiedByte (copyBegun l p s) i = winSlot s (p + BitVec.ofNat 12 (i % (distance s.pos p).toNat)) :=
    copiedByte_eq_winSlot_mod (s := copyBegun l p s) hi.winWf (by omega)
  rw [← byte]
  exact ⟨read_out_copySteps (s := copyBegun l p s) hi.outWf hlt,
    winSlot_copySteps (s := copyBegun l p s) hi.winWf (by omega) hlt⟩

/-- The next states of a `MATCH`: the end of the stream before the pair or inside it, an invalid back-reference, or the copy. -/
theorem exec_matchRef_cases {s t : State} {l : BitVec 4} {p : Slot} (h : exec (.matchRef l p) s = .next t) :
    (s.inLen ≤ s.inPos ∧ t = raise .malformedInput s) ∨
    (s.inPos + 1 = s.inLen ∧ t = raise .malformedInput (latchB0 (matchByte0 l p) (advance s))) ∨
    (s.inPos + 2 ≤ s.inLen ∧ backRefInvalid s.pos p s.outCount = true ∧
      t = raise .invalidBackRef (pairLatched (matchByte0 l p) (matchByte1 p) s)) ∨
    (s.inPos + 2 ≤ s.inLen ∧ backRefInvalid s.pos p s.outCount = false ∧
      t = copySteps (copyCount l s.targetLen s.outCount).toNat (copyBegun l p s)) := by
  rcases (by omega : s.inLen ≤ s.inPos ∨ s.inPos + 1 = s.inLen ∨ s.inPos + 2 ≤ s.inLen) with none | one | both
  · rw [streamEndTakesMalformedInput s _ none] at h
    cases h
    exact .inl ⟨none, rfl⟩
  · rw [cutPairTakesMalformedInput s l p one] at h
    cases h
    exact .inr (.inl ⟨one, rfl⟩)
  · cases hv : backRefInvalid s.pos p s.outCount with
    | true =>
      rw [invalidMatchTakesError s l p both hv] at h
      cases h
      exact .inr (.inr (.inl ⟨both, rfl, rfl⟩))
    | false =>
      rw [exec_matchRef_of_valid both hv] at h
      cases h
      exact .inr (.inr (.inr ⟨both, rfl, rfl⟩))

/-- Settles O20: an error leaves all but the cursor, the latches, `err` and `phase`; the copy writes its own slots and output bytes. -/
theorem matchFrame : Obligations.MatchFrame := by
  intro s t l p hi hw h
  obtain ⟨one_le, -⟩ := copyCount_bounds l hw
  rcases exec_matchRef_cases h with ⟨-, rfl⟩ | ⟨-, rfl⟩ | ⟨-, -, rfl⟩ | ⟨-, -, rfl⟩
  · simp
  · simp
  · simp [pairLatched]
  · have ended : (copySteps (copyCount l s.targetLen s.outCount).toNat (copyBegun l p s)).phase = .query :=
      copySteps_all_phase (s := copyBegun l p s) one_le
    refine ⟨copySteps_control _ _, copySteps_mask _ _, copySteps_inLen _ _, copySteps_targetLen _ _,
      copySteps_targetLenReg _ _, copySteps_inLenReg _ _, copySteps_schedule _ _, copySteps_freeCount _ _,
      .inl ⟨ended, copySteps_err _ _⟩, fun a => ?_, fun a ha => ?_, fun a ha => ?_⟩
    · rw [copySteps_cs]
      rfl
    · refine read_win_copySteps_of_ne (s := copyBegun l p s) hi.winWf fun i hlt => ?_
      rw [toNat_slot_add]
      exact ha i hlt
    · exact read_out_copySteps_of_ne (s := copyBegun l p s) hi.outWf ha

/-- Settles O4: the fields on numbers; and the first copy step after a check that passes emits the byte of the slot named. -/
theorem matchFieldsAreTheRules : Obligations.MatchFieldsAreTheRules := by
  refine ⟨toNat_pairFields, fun s hi hp hv => ?_⟩
  have checked : seqStep s = .next (matchCheck s) := by simp only [seqStep, hp]
  have copying : seqStep (matchCheck s) = .next (copyStep (matchCheck s)) := by
    rw [matchCheck_of_valid hv]
    rfl
  refine ⟨copyStep (matchCheck s), by simp only [seqSteps, checked, copying], ?_⟩
  have wf : Memory.wf .out (matchCheck s).out = true := by
    rw [matchCheck_of_valid hv]
    exact hi.outWf
  have emitted := read_out_copyStep wf s.outCount
  rw [matchCheck_of_valid hv] at emitted ⊢
  exact emitted.trans (if_pos rfl)

theorem seqSteps_one (s : State) : seqSteps 1 s = seqStep s := by
  unfold seqSteps
  cases seqStep s <;> rfl

/-- Settles O54: a fetched pair is run as its sub-steps, the other two instructions are rows of R115, and where nothing is fetched the
step is the phase machine's own. -/
theorem tokenStepIsPhaseSteps : Obligations.TokenStepIsPhaseSteps := by
  intro s hs
  have run {i : Instr} (hf : fetch s = some i) : step s = exec i s := by simp only [step, hs, hf]
  refine ⟨fun l p hf => (run hf).trans (execMatchRef_eq_seqSteps hf), fun hne => ?_⟩
  rw [seqSteps_one]
  cases hf : fetch s with
  | none => simp only [step, hs, hf]
  | some i =>
    cases i with
    | ctl f => exact (run hf).trans (execCtl_eq_seqStep hf)
    | lit c => exact (run hf).trans (execLit_eq_seqStep hf)
    | matchRef l p => exact absurd hf (hne l p)

end Sys2Proof.Machine
end

section
/-! SUPPORT. A step of the engine alone, in two states of the same decode (43_decode_sequence.md R117): the same instruction is
fetched, and as many steps of the phase machine are run. -/

namespace Sys2Proof.Machine

/-- The bytes fetched are those below `in_len`, on which the two states agree. -/
theorem SameDecode.streamBytes_eq {s t : State} (h : SameDecode s t) (n a : Nat) : streamBytes s n a = streamBytes t n a := by
  induction n generalizing a with
  | zero => rfl
  | succ n ih =>
    unfold streamBytes
    rw [← h.inLen]
    split_ifs with ha
    · rw [h.stream a ha]
      cases Memory.read .cs t.cs a with
      | none => rfl
      | some v => exact congrArg (v :: ·) (ih (a + 1))
    · rfl

theorem SameDecode.fetchRole_eq {s t : State} (h : SameDecode s t) : fetchRole s = fetchRole t := by
  unfold fetchRole
  rw [h.phase, h.outCount, h.targetLen, h.mask]

theorem SameDecode.fetch_eq {s t : State} (h : SameDecode s t) : fetch s = fetch t := by
  unfold fetch
  rw [h.fetchRole_eq, h.inPos]
  simp only [h.streamBytes_eq]

/-- Equal numbers of steps of the phase machine end alike. -/
theorem sameOutcome_seqSteps (n : Nat) {s t : State} (h : SameDecode s t) : SameOutcome (seqSteps n s) (seqSteps n t) := by
  induction n generalizing s t with
  | zero => exact h
  | succ n ih =>
    have same := sameOutcome_seqStep h
    unfold seqSteps
    generalize seqStep s = x, seqStep t = y at same
    match x, y, same with
    | .next _, .next _, same => exact ih same
    | .fault _, .fault _, same => exact same
    | .refused _, .refused _, same => exact same

/-- Settles O55: both states run the same number of steps of the phase machine, which the fetched instruction tells. -/
theorem decodeDependsOnRequestOnly : Obligations.DecodeDependsOnRequestOnly := by
  refine ⟨fun s t hs ht h => ?_, fun s t l n => start_sameDecode n⟩
  obtain ⟨pairS, singleS⟩ := tokenStepIsPhaseSteps s hs
  obtain ⟨pairT, singleT⟩ := tokenStepIsPhaseSteps t ht
  by_cases hf : ∃ l p, fetch s = some (.matchRef l p)
  · obtain ⟨l, p, hf⟩ := hf
    rw [pairS l p hf, pairT l p (h.fetch_eq ▸ hf), ← h.pos, ← h.outCount, ← h.targetLen]
    exact sameOutcome_seqSteps _ h
  · have none : ∀ l p, fetch s ≠ some (.matchRef l p) := fun l p e => hf ⟨l, p, e⟩
    rw [singleS none, singleT (h.fetch_eq ▸ none)]
    exact sameOutcome_seqSteps 1 h

end Sys2Proof.Machine
end

section
/-! SUPPORT. The phase machine as a table (43_decode_sequence.md R111 to R118): the loop head, when the sequencer has a step, the
transitions of `phase`, and the order in which the agents move. -/

namespace Sys2Proof.Machine

/-- R112, R113: with the output complete the loop head ends the decode. -/
theorem seqStep_of_full {s : State} (hp : s.phase = .query) (h : s.outCount = s.targetLen) :
    seqStep s = .next (finishDecode s) := by
  simp only [seqStep, hp, queryStep, if_pos h]

/-- R112: with output wanted and no flag left in the group, the loop head is the control-byte load. -/
theorem seqStep_of_reloadDue {s : State} (hp : s.phase = .query) (hw : s.outCount ≠ s.targetLen)
    (hm : s.mask = Config.MASK_RELOAD) : seqStep s = streamRead loadControl s := by
  simp only [seqStep, hp, queryStep, if_neg hw, if_pos hm]

/-- Settles O30: the three cases of the loop head. -/
theorem queryTestsCompletionFirst : Obligations.QueryTestsCompletionFirst := fun _ hp =>
  ⟨seqStep_of_full hp, seqStep_of_reloadDue hp, seqStep_of_flagDue hp⟩

/-- R111, R124: outside RUN the sequencer has no step. -/
theorem seqStep_of_not_inRun {s : State} (h : s.phase.inRun = false) : seqStep s = .fault .noStep := by
  unfold seqStep
  cases hp : s.phase
  case idle | done | error => rfl
  all_goals simp [hp, Phase.inRun] at h

/-- A StreamRead of a placed stream answers a next state, at its end too. -/
theorem streamRead_of_placed (k : Byte → State → State) {s : State} (h : StreamPlaced s s.inLen) :
    ∃ t, streamRead k s = .next t := by
  rcases Nat.lt_or_ge s.inPos s.inLen with hl | hl
  · obtain ⟨v, hv⟩ := Option.isSome_iff_exists.1 (h s.inPos hl)
    exact ⟨_, streamRead_of_some hl hv⟩
  · exact ⟨_, streamRead_of_le hl⟩

theorem queryStep_of_placed {s : State} (h : StreamPlaced s s.inLen) : ∃ t, queryStep s = .next t := by
  unfold queryStep
  split_ifs
  · exact ⟨_, rfl⟩
  · exact streamRead_of_placed _ h
  · exact ⟨_, rfl⟩

/-- In RUN, over a placed stream, the sequencer has a step. -/
theorem seqStep_of_placed {s : State} (h : StreamPlaced s s.inLen) (hr : s.phase.inRun = true) : ∃ t, seqStep s = .next t := by
  unfold seqStep
  cases hp : s.phase with
  | query => exact queryStep_of_placed h
  | lit | mB0 | mB1 => exact streamRead_of_placed _ h
  | mChk | copy => exact ⟨_, rfl⟩
  | idle | done | error => simp [hp, Phase.inRun] at hr

/-- Settles O32: phase by phase, every StreamRead being of a placed stream. -/
theorem sequencerStepsExactlyInRun : Obligations.SequencerStepsExactlyInRun := fun _ h =>
  ⟨seqStep_of_placed h, seqStep_of_not_inRun⟩

/-- Settles O31: each case of `seqStep_cases` is the row of its phase, under the row's condition; in COPY `cnt` is at least 1, so that
it runs out exactly when it is 1. -/
theorem phaseTransitions : Obligations.PhaseTransitions := by
  intro s t hi h
  rcases seqStep_cases h with ⟨hp, hfull, rfl⟩ | ⟨hp, hw, hm, rfl⟩ | ⟨hp, hl, rfl⟩ | ⟨hl, v, -, h⟩ | ⟨hp, rfl⟩ | ⟨hp, rfl⟩
  · simp [hp, hfull]
  · refine .inl ⟨hp, ?_⟩
    rw [if_neg hw, if_neg hm]
    simp [flagPhase, flagBit]
  · rcases hp with ⟨hp, hw, hm⟩ | hp | hp | hp <;> simp [*, Nat.not_lt.2 hl]
  · rcases h with ⟨hp, hw, hm, rfl⟩ | ⟨hp, rfl⟩ | ⟨hp, rfl⟩ | ⟨hp, rfl⟩ <;> simp [*]
  · rcases matchCheck_cases s with ⟨hv, e⟩ | ⟨hv, e⟩ <;> rw [e]
    · simp [hp, Nat.not_le.2 (of_decide_eq_true hv)]
    · simp [hp, backRefInvalid_eq_false_iff.1 hv]
  · obtain ⟨one_le, -⟩ := hi.copyBudget hp
    have last : s.cnt - 1 = 0 ↔ ¬1 < s.cnt.toNat := by bv_omega
    simp only [hp, copyStep_phase, last, ite_not]
    simp

/-- Outside RUN nothing is fetched: each role's bytes are read in a phase of RUN. -/
theorem fetch_of_not_inRun {s : State} (h : s.phase.inRun = false) : fetch s = none := by
  by_contra hf
  obtain ⟨i, hf⟩ := Option.ne_none_iff_exists'.1 hf
  obtain ⟨r, -, hr, -⟩ := fetch_decodes hf
  rw [(phase_of_fetchRole hr).1] at h
  cases r <;> cases h

/-- With the output complete the loop head fetches nothing (R112). -/
theorem fetch_of_full {s : State} (hp : s.phase = .query) (h : s.outCount = s.targetLen) : fetch s = none := by
  simp [fetch, fetchRole, hp, h]

/-- Where nothing is fetched the engine alone takes a step of the phase machine. -/
theorem step_of_fetch_none {s : State} (hs : s.schedule = []) (hf : fetch s = none) : step s = seqStep s := by
  simp only [step, hs, hf]

/-- Settles O26: the schedule's first move is the step, and outside RUN neither a fetch nor the phase machine gives one. -/
theorem scheduleOrdersMoves : Obligations.ScheduleOrdersMoves := by
  refine ⟨fun s rest hs => ?_, fun s a rest hs => ?_, fun s hs hr => ?_⟩
  · simp only [step, hs]
  · simp only [step, hs]
  · rw [step_of_fetch_none hs (fetch_of_not_inRun hr), seqStep_of_not_inRun hr]

/-- Settles O53: the first completion test finds the output complete. -/
theorem zeroLengthIsNoOp : Obligations.ZeroLengthIsNoOp := fun s l hs =>
  ⟨_, (step_of_fetch_none (s := start l 0 s) hs (fetch_of_full rfl rfl)).trans (seqStep_of_full rfl rfl),
    rfl, rfl, rfl, rfl, rfl, rfl, rfl⟩

end Sys2Proof.Machine
end

section
/-! SUPPORT. START and what ends a decode (43_decode_sequence.md R110, R116, R121, R122): the command outside RUN and in it, and the
result read off a state in DONE. -/

namespace Sys2Proof.Machine

/-- The six phases of RUN (R10). -/
theorem inRun_iff_mem {p : Phase} : p.inRun = true ↔ p ∈ [Phase.query, .lit, .mB0, .mB1, .mChk, .copy] := by
  cases p <;> decide

theorem not_inRun_iff_mem {p : Phase} : p.inRun = false ↔ p ∈ [Phase.idle, .done, .error] := by
  cases p <;> decide

/-- R110: outside RUN a write of 1 to CTRL.START begins a decode of the staging registers. -/
theorem hostStep_start {s : State} {v : Nat} (hv : v.testBit 0 = true) (hr : s.phase.inRun = false) :
    hostStep (.writeReg 0 v) s = .next (start s.inLenReg s.targetLenReg s) := by
  simp [hostStep, hostWrite, startCommand, hv, hr]

/-- R122: in RUN a write of CTRL does nothing. -/
theorem hostStep_start_inRun {s : State} (v : Nat) (hr : s.phase.inRun = true) : hostStep (.writeReg 0 v) s = .next s := by
  simp [hostStep, hostWrite, startCommand, hr]

/-- Settles O38: the fields of START are its definition, and two decodes begun with the same operands over the same stream agree. -/
theorem startInitialisesDecode : Obligations.StartInitialisesDecode := by
  refine ⟨fun s v hv hp => ?_, fun s v hp => hostStep_start_inRun v (inRun_iff_mem.2 hp)⟩
  refine ⟨_, hostStep_start hv (not_inRun_iff_mem.2 hp), rfl, rfl, rfl, rfl, rfl, rfl, rfl, rfl, rfl, fun _ => rfl, fun _ => rfl, ?_⟩
  intro u x hu hin htarget hcs hx
  rw [hostStep_start hv (not_inRun_iff_mem.2 hu), hin, htarget] at hx
  cases hx
  exact start_sameDecode _ fun a _ => by rw [hcs]

/-- Settles O39: START and writes of `CS` are for the other phases, and a register write leaves the phase. -/
theorem startInRunIsIgnored : Obligations.StartInRunIsIgnored := by
  intro s hp
  have hr := inRun_iff_mem.2 hp
  refine ⟨fun v => hostStep_start_inRun v hr, ⟨_, rfl, rfl⟩, fun a t h hne => ?_⟩
  rcases hostStep_cases h with ⟨-, stopped, -⟩ | ⟨rfl, -⟩ | ⟨_, _, -, stopped, -⟩ | ⟨_, _, -, e, -⟩
  · simp [hr] at stopped
  · rfl
  · simp [hr] at stopped
  · exact absurd (congrArg State.phase e) hne

/-- Output bytes that are all listed are as many as asked for, each the one listed. -/
theorem outBytes_of_listed {s : State} {n : Nat} (h : ∀ a : Nat, a < n → (Memory.read .out s.out a).isSome = true) :
    (outBytes s n).length = n ∧ ∀ a : Nat, a < n → Memory.read .out s.out a = (outBytes s n)[a]? := by
  have value : ∀ a : Nat, a < n → Memory.read .out s.out a = some ((Memory.read .out s.out a).getD 0) := by
    intro a ha
    obtain ⟨b, hb⟩ := Option.isSome_iff_exists.1 (h a ha)
    rw [hb, Option.getD_some]
  have bytes : outBytes s n = (List.range n).map fun a => (Memory.read .out s.out a).getD 0 := by
    rw [← List.filterMap_eq_map]
    exact List.filterMap_congr fun a ha => value a (List.mem_range.1 ha)
  rw [bytes]
  refine ⟨by simp, fun a ha => ?_⟩
  rw [List.getElem?_map, List.getElem?_range ha]
  exact value a ha

/-- The result in DONE (R121). -/
theorem decodeResult_done {s : State} (h : s.phase = .done) : decodeResult s = some (.ok (outBytes s s.targetLen)) := by
  unfold decodeResult
  rw [h]

/-- Settles O52: in DONE `out_count = target_len`, and the output is listed exactly below `out_count`. -/
theorem resultHasExactLength : Obligations.ResultHasExactLength := by
  intro s hi hw hp
  have listed : ∀ a : Nat, a < s.targetLen → (Memory.read .out s.out a).isSome = true := fun a ha =>
    (hw.outListed (by simp [hp]) a).2 (hi.doneFull hp ▸ ha)
  obtain ⟨length, bytes⟩ := outBytes_of_listed listed
  exact ⟨_, decodeResult_done hp, length, fun a ha => (if_pos ⟨hp, ha⟩).trans (bytes a ha)⟩

end Sys2Proof.Machine
end

section
/-! SUPPORT. The control-byte loads that a decode can still need, by the mask and the output still wanted
(43_decode_sequence.md R119, R120). -/

namespace Sys2Proof.Machine

/-- How many CONTROL bytes the next `wanted` tokens need beyond the flags that are left under the mask. -/
def reloadsLeft (mask wanted : Nat) : Nat := (wanted - (8 - mask.log2) + 7) / 8

theorem reloadsLeft_twoPow (k r : Nat) : reloadsLeft (2 ^ k) r = (r - (8 - k) + 7) / 8 := by
  rw [reloadsLeft, Nat.log2_two_pow]

/-- With a reload due no flag is left. -/
@[simp] theorem reloadsLeft_due (r : Nat) : reloadsLeft 256 r = (r + 7) / 8 := reloadsLeft_twoPow 8 r

/-- A load is one of those needed. -/
theorem reloadsLeft_load {r : Nat} (h : 0 < r) : reloadsLeft 256 r = reloadsLeft 1 r + 1 := by
  rw [reloadsLeft_due, show reloadsLeft 1 r = _ from reloadsLeft_twoPow 0 r]
  omega

/-- A flag serves one token. -/
theorem reloadsLeft_flag {k : Nat} (h : k < 8) (r : Nat) : reloadsLeft (2 ^ k) (r + 1) = reloadsLeft (2 ^ k * 2) r := by
  rw [← Nat.pow_succ, reloadsLeft_twoPow, reloadsLeft_twoPow]
  omega

theorem reloadsLeft_mono (mask : Nat) {r r' : Nat} (h : r ≤ r') : reloadsLeft mask r ≤ reloadsLeft mask r' := by
  unfold reloadsLeft
  omega

/-- The nine values of the mask are the powers of two up to 256 (R13). -/
theorem exists_twoPow_of_mem_maskValues {m : Mask} (h : m ∈ maskValues) : ∃ k ≤ 8, m = BitVec.twoPow 9 k := by
  decide +revert

/-- A mask that demands no reload is on one of the eight flags, and moves on to the next value (R82). -/
theorem toNat_maskAdvance {m : Mask} (h : m ∈ maskValues) (hne : m ≠ Config.MASK_RELOAD) :
    ∃ k < 8, m = BitVec.twoPow 9 k ∧ m.toNat = 2 ^ k ∧ (maskAdvance m).toNat = 2 ^ k * 2 := by
  obtain ⟨k, hk, rfl⟩ := exists_twoPow_of_mem_maskValues h
  have flag : k < 8 := Nat.lt_of_le_of_ne hk fun e => hne (e ▸ rfl)
  exact ⟨k, flag, rfl, BitVec.toNat_twoPow_of_lt (by omega),
    by rw [maskAdvance_twoPow, BitVec.toNat_twoPow_of_lt (by omega), Nat.pow_succ]⟩

end Sys2Proof.Machine
end

section
/-! SUPPORT. Termination of the phase machine (43_decode_sequence.md R119): a bound on the steps still to come that every step
lowers. -/

namespace Sys2Proof.Machine

/-- The bound at the loop head with `r` bytes wanted: five steps for each byte, the loads, and the completion test. -/
def loopBound (mask r : Nat) : Nat := 5 * r + reloadsLeft mask r + 1

theorem loopBound_pos (mask r : Nat) : 1 ≤ loopBound mask r := Nat.succ_le_succ (Nat.zero_le _)

theorem loopBound_lt (mask : Nat) {r r' : Nat} (h : r < r') : loopBound mask r < loopBound mask r' := by
  have := reloadsLeft_mono mask h.le
  unfold loopBound
  omega

theorem loopBound_load {r : Nat} (h : 0 < r) : loopBound 256 r = loopBound 1 r + 1 := by
  rw [loopBound, reloadsLeft_load h, loopBound]
  omega

/-- The flag query opens a token of at most five steps for its first byte. -/
theorem loopBound_flag {k : Nat} (h : k < 8) (r : Nat) : loopBound (2 ^ k) (r + 1) = loopBound (2 ^ k * 2) r + 5 := by
  rw [loopBound, reloadsLeft_flag h, loopBound]
  omega

/-- A bound on the steps still to come; inside a token, the steps up to its next byte, and the bound at the loop head after it. -/
def stepsLeft (s : State) : Nat :=
  match s.phase with
  | .query => loopBound s.mask.toNat (s.targetLen - s.outCount)
  | .mB0 => loopBound s.mask.toNat (s.targetLen - (s.outCount + 1)) + 4
  | .mB1 => loopBound s.mask.toNat (s.targetLen - (s.outCount + 1)) + 3
  | .mChk => loopBound s.mask.toNat (s.targetLen - (s.outCount + 1)) + 2
  | .lit | .copy => loopBound s.mask.toNat (s.targetLen - (s.outCount + 1)) + 1
  | .error => 1
  | .idle | .done => 0

/-- Where an error can arise there are at least two steps in the bound. -/
theorem one_lt_stepsLeft {s : State} (hb : CountersBounded s) (hr : s.phase.inRun = true)
    (hw : s.phase = .query → s.outCount ≠ s.targetLen) : 1 < stepsLeft s := by
  have pos := loopBound_pos s.mask.toNat (s.targetLen - (s.outCount + 1))
  unfold stepsLeft
  cases hp : s.phase with
  | query =>
    have hout := hb.outBound (by simp [hp])
    have hne := hw hp
    have := loopBound_lt s.mask.toNat (show s.targetLen - (s.outCount + 1) < s.targetLen - s.outCount by omega)
    simp only
    omega
  | lit | mB0 | mB1 | mChk | copy => simp only; omega
  | idle | done | error => simp [hp, Phase.inRun] at hr

/-- The flag query moves the bound from the loop head into the token. -/
theorem stepsLeft_flagStep {s : State} (hi : EngineInv s) (hp : s.phase = .query) (hw : s.outCount ≠ s.targetLen)
    (hm : s.mask ≠ Config.MASK_RELOAD) : stepsLeft (flagStep s) < stepsLeft s := by
  obtain ⟨k, hk, -, mask, next⟩ := toNat_maskAdvance (hi.maskValue (by simp [hp])) hm
  have hout := hi.outBound (by simp [hp])
  have wanted : s.targetLen - s.outCount = s.targetLen - (s.outCount + 1) + 1 := by omega
  have flag := loopBound_flag hk (s.targetLen - (s.outCount + 1))
  cases hf : flagBit s.control s.mask <;> simp [stepsLeft, flagPhase, hf, hp, mask, next, wanted, flag]

/-- A copy step emits a byte; after the last one the loop head follows. -/
theorem stepsLeft_copyStep {s : State} (hi : EngineInv s) (hp : s.phase = .copy) : stepsLeft (copyStep s) < stepsLeft s := by
  obtain ⟨one_le, fits⟩ := hi.copyBudget hp
  have phase := copyStep_phase s
  split_ifs at phase with last
  · simp only [stepsLeft, phase, hp, copyStep_mask, copyStep_targetLen, copyStep_outCount]
    omega
  · have more : s.targetLen - (s.outCount + 1 + 1) < s.targetLen - (s.outCount + 1) := by bv_omega
    simp only [stepsLeft, phase, hp, copyStep_mask, copyStep_targetLen, copyStep_outCount]
    exact Nat.succ_lt_succ (loopBound_lt _ more)

/-- Every step lowers the bound. -/
theorem seqStep_stepsLeft_lt {s t : State} (hi : EngineInv s) (h : seqStep s = .next t) : stepsLeft t < stepsLeft s := by
  have hr := seqStep_inRun h
  rcases seqStep_cases h with ⟨hp, -, rfl⟩ | ⟨hp, hw, hm, rfl⟩ | ⟨hp, -, rfl⟩ | ⟨-, v, -, h⟩ | ⟨hp, rfl⟩ | ⟨hp, rfl⟩
  · simp only [stepsLeft, hp, finishDecode_phase]
    exact loopBound_pos _ _
  · exact stepsLeft_flagStep hi hp hw hm
  · refine one_lt_stepsLeft hi.countersBounded hr fun hq => ?_
    simp only [hq, true_and, reduceCtorEq, or_false] at hp
    exact hp.1
  · rcases h with ⟨hp, hw, hm, rfl⟩ | ⟨hp, rfl⟩ | ⟨hp, rfl⟩ | ⟨hp, rfl⟩
    · have hout := hi.outBound (by simp [hp])
      have load := loopBound_load (show 0 < s.targetLen - s.outCount by omega)
      simp [stepsLeft, hp, hm, load]
    all_goals simp [stepsLeft, hp]
  · rcases matchCheck_cases s with ⟨-, e⟩ | ⟨-, e⟩ <;> rw [e]
    · exact one_lt_stepsLeft hi.countersBounded hr (by simp [hp])
    · simp [stepsLeft, hp]
  · exact stepsLeft_copyStep hi hp

/-- No step of the sequencer leads to IDLE (R115). -/
theorem seqStep_ne_idle {s t : State} (hi : EngineInv s) (h : seqStep s = .next t) : t.phase ≠ .idle := by
  rcases phaseTransitions s t hi h with ⟨-, e⟩ | ⟨-, e⟩ | ⟨-, e⟩ | ⟨-, e⟩ | ⟨-, e⟩ | ⟨-, e⟩ <;> rw [e] <;> split_ifs <;> nofun

/-- Over a placed stream a decode ends, within the bound. -/
theorem seqSteps_ends {s : State} (hi : EngineInv s) (hp : StreamPlaced s s.inLen) (hne : s.phase ≠ .idle) :
    ∃ (k : Nat) (t : State), seqSteps k s = .next t ∧ t.phase.ended = true ∧ k + stepsLeft t ≤ stepsLeft s := by
  induction hb : stepsLeft s using Nat.strong_induction_on generalizing s with
  | h b ih =>
    subst hb
    cases hr : s.phase.inRun with
    | false =>
      refine ⟨0, s, rfl, ?_, by omega⟩
      cases hq : s.phase <;> simp [hq, Phase.inRun, Phase.ended] at hr hne ⊢
    | true =>
      obtain ⟨t, ht⟩ := seqStep_of_placed hp hr
      have lower := seqStep_stepsLeft_lt hi ht
      obtain ⟨hcs, hin, -⟩ := seqStep_keeps ht
      have placed : StreamPlaced t t.inLen := by
        unfold StreamPlaced
        rw [hcs, hin]
        exact hp
      obtain ⟨k, u, hu, ended, le⟩ := ih _ lower (seqStep_keeps_engineInv hi ht) placed (seqStep_ne_idle hi ht) rfl
      exact ⟨k + 1, u, by simp only [seqSteps, ht, hu], ended, by omega⟩

/-- Settles O56: the bound at START is the rule's; at the end it is 0 in DONE and 1 in ERROR. -/
theorem decodeEndsWithinBound : Obligations.DecodeEndsWithinBound := by
  intro s l n hi hp
  obtain ⟨k, t, ht, ended, le⟩ := seqSteps_ends (start_engineInv l n hi.csWf) hp (by simp)
  have bound : stepsLeft (start l n s) = 5 * n + (n + 7) / 8 + 1 := by simp [stepsLeft, loopBound]
  rw [bound] at le
  refine ⟨k, t, ht, ?_⟩
  cases hq : t.phase with
  | done => exact .inl ⟨rfl, by omega⟩
  | error =>
    have last : stepsLeft t = 1 := by simp only [stepsLeft, hq]
    exact .inr ⟨rfl, by omega⟩
  | idle | query | lit | mB0 | mB1 | mChk | copy => simp [hq, Phase.ended] at ended

end Sys2Proof.Machine
end

section
/-! SUPPORT. How much of the stream a successful decode reads (43_decode_sequence.md R120): what one pass of R114's loop reads and
produces, and a bound on what the passes to come can read. -/

namespace Sys2Proof.Machine

theorem except_bind_eq_ok {α β : Type} {x : Except DecodeFault α} {f : α → Except DecodeFault β} {b : β}
    (h : x.bind f = .ok b) : ∃ a, x = .ok a ∧ f a = .ok b := by
  cases x with
  | error e => cases h
  | ok a => exact ⟨a, rfl, h⟩

@[simp] theorem refCopy_mask (mp n i : Nat) (v : DecodeVars) : (refCopy mp n i v).mask = v.mask := by
  induction n generalizing i v with
  | zero => rfl
  | succ n ih => rw [refCopy, ih, refPut]

@[simp] theorem length_refCopy (mp n i : Nat) (v : DecodeVars) : (refCopy mp n i v).out.length = v.out.length + n := by
  induction n generalizing i v with
  | zero => rfl
  | succ n ih =>
    rw [refCopy, ih, refPut, List.length_append, List.length_singleton]
    omega

/-- A reload that succeeds loads a byte when one is due, and does nothing otherwise. -/
theorem refReload_eq_ok {cs : List Byte} {v u : DecodeVars} (h : refReload cs v = .ok u) :
    v.mask ≠ 256 ∧ u = v ∨ v.mask = 256 ∧ ∃ b, u = refLoaded b v := by
  by_cases hm : v.mask = 256
  · rw [refReload_of_due hm] at h
    obtain ⟨⟨b, w⟩, hr, hu⟩ := except_bind_eq_ok h
    obtain ⟨-, rfl⟩ := refRead_eq_ok_iff.1 hr
    cases hu
    exact .inr ⟨hm, b, rfl⟩
  · rw [refReload, if_neg hm] at h
    cases h
    exact .inl ⟨hm, rfl⟩

/-- What the pass from `v` to `w` costs after the reload: it moves the mask on, reads one or two bytes and produces at least one; it
reads no more than it produces, unless it is a pair that completes the output. -/
structure PassCost (n : Nat) (v w : DecodeVars) : Prop where
  mask : w.mask = v.mask * 2
  reads : v.inPos + 1 ≤ w.inPos
  produces : v.out.length < w.out.length
  fits : w.out.length ≤ n
  balance : w.inPos + v.out.length ≤ v.inPos + w.out.length ∨ w.inPos ≤ v.inPos + 2 ∧ w.out.length = n

/-- A pair that passes the check copies its nominal count, at least two bytes, or what is still wanted (R101). -/
theorem refPair_cost {n : Nat} {b0 b1 : Byte} {v w : DecodeVars} (hw : v.out.length < n) (h : refPair n b0 b1 v = .ok w) :
    w.mask = v.mask ∧ w.inPos = v.inPos ∧ w.out.length ≤ n ∧ (v.out.length + 2 ≤ w.out.length ∨ w.out.length = n) := by
  have cursor := refPair_inPos h
  unfold refPair at h
  extract_lets mp ml d0 d r cc at h
  split_ifs at h
  cases h
  rw [length_refCopy]
  refine ⟨refCopy_mask mp cc 0 v, cursor, ?_⟩
  have nominal : 1 ≤ ml := Nat.le_add_left _ _
  simp only [cc, r]
  split_ifs <;> omega

theorem refFlagged_cost {cs : List Byte} {n : Nat} {v w : DecodeVars} (hw : v.out.length < n) (h : refFlagged n v cs = .ok w) :
    PassCost n v w := by
  unfold refFlagged at h
  split_ifs at h
  · obtain ⟨⟨c, u⟩, hr, hu⟩ := except_bind_eq_ok h
    obtain ⟨-, rfl⟩ := refRead_eq_ok_iff.1 hr
    cases hu
    constructor <;> simp [refPut] <;> omega
  · rw [refMatch_eq_bind] at h
    obtain ⟨⟨b0, u⟩, hr, h⟩ := except_bind_eq_ok h
    obtain ⟨-, rfl⟩ := refRead_eq_ok_iff.1 hr
    obtain ⟨⟨b1, u⟩, hr, h⟩ := except_bind_eq_ok h
    obtain ⟨-, rfl⟩ := refRead_eq_ok_iff.1 hr
    obtain ⟨mask, cursor, fits, produces⟩ :=
      refPair_cost (v := { v with mask := v.mask * 2, inPos := v.inPos + 2 }) hw h
    simp only at cursor produces
    exact ⟨mask, by omega, by omega, fits, by omega⟩

/-- A bound on the bytes that the passes to come can read: one for each byte wanted, one more for the last pair, and the loads. -/
def readsLeft (n : Nat) (v : DecodeVars) : Nat :=
  if v.out.length < n then n - v.out.length + 1 + reloadsLeft v.mask (n - v.out.length) else 0

theorem readsLeft_of_wanted {n : Nat} {v : DecodeVars} (h : v.out.length < n) :
    readsLeft n v = n - v.out.length + 1 + reloadsLeft v.mask (n - v.out.length) := if_pos h

/-- A pass after its reload pays for what it reads. -/
theorem PassCost.readsLeft_le {n k : Nat} {v w : DecodeVars} (hk : k < 8) (hm : v.mask = 2 ^ k) (hw : v.out.length < n)
    (h : PassCost n v w) : w.inPos + readsLeft n w ≤ v.inPos + readsLeft n v := by
  obtain ⟨mask, reads, produces, fits, balance⟩ := h
  have wanted : n - v.out.length = n - (v.out.length + 1) + 1 := by omega
  rw [readsLeft_of_wanted hw, hm, wanted, reloadsLeft_flag hk, ← hm, ← mask]
  by_cases hn : w.out.length < n
  · have fewer := reloadsLeft_mono w.mask (show n - w.out.length ≤ n - (v.out.length + 1) by omega)
    rw [readsLeft_of_wanted hn]
    omega
  · rw [readsLeft, if_neg hn]
    omega

/-- A load is one of the bytes counted. -/
theorem readsLeft_refLoaded {n : Nat} {v : DecodeVars} (b : Byte) (hm : v.mask = 256) (hw : v.out.length < n) :
    (refLoaded b v).inPos + readsLeft n (refLoaded b v) = v.inPos + readsLeft n v := by
  have load := reloadsLeft_load (show 0 < n - v.out.length by omega)
  rw [readsLeft_of_wanted hw, readsLeft_of_wanted (v := refLoaded b v) hw, hm, load]
  simp only [refLoaded]
  omega

/-- One pass of the loop: the mask takes its next value, and the bytes read are paid for. -/
theorem refToken_cost {cs : List Byte} {n k : Nat} {v w : DecodeVars} (hk : k ≤ 8) (hm : v.mask = 2 ^ k) (hw : v.out.length < n)
    (h : refToken cs n v = .ok w) : (∃ k ≤ 8, w.mask = 2 ^ k) ∧ w.inPos + readsLeft n w ≤ v.inPos + readsLeft n v := by
  rw [refToken_eq_bind] at h
  obtain ⟨u, hr, hf⟩ := except_bind_eq_ok h
  rcases refReload_eq_ok hr with ⟨hne, rfl⟩ | ⟨hdue, b, rfl⟩
  · have flag : k < 8 := Nat.lt_of_le_of_ne hk fun e => hne (by rw [hm, e]; rfl)
    have cost := refFlagged_cost hw hf
    exact ⟨⟨k + 1, flag, by rw [cost.mask, hm, Nat.pow_succ]⟩, cost.readsLeft_le flag hm hw⟩
  · have cost := refFlagged_cost (v := refLoaded b v) hw hf
    exact ⟨⟨1, by decide, cost.mask⟩,
      (cost.readsLeft_le (v := refLoaded b v) (k := 0) (by decide) rfl hw).trans_eq (readsLeft_refLoaded b hdue hw)⟩

theorem refLoop_reads_le {cs : List Byte} {n fuel k : Nat} {v w : DecodeVars} (hk : k ≤ 8) (hm : v.mask = 2 ^ k)
    (h : refLoop cs n fuel v = .ok w) : w.inPos ≤ v.inPos + readsLeft n v := by
  induction fuel generalizing v k with
  | zero =>
    cases h
    exact Nat.le_add_right _ _
  | succ fuel ih =>
    by_cases hw : v.out.length < n
    · rw [refLoop_succ hw] at h
      obtain ⟨u, ht, hl⟩ := except_bind_eq_ok h
      obtain ⟨⟨j, hj, mask⟩, paid⟩ := refToken_cost hk hm hw ht
      exact (ih hj mask hl).trans paid
    · rw [refLoop, if_neg hw] at h
      cases h
      exact Nat.le_add_right _ _

/-- The first pass loads a CONTROL byte and reads a token. -/
theorem two_le_inPos_of_refDecode {cs : List Byte} {n : Nat} {v : DecodeVars} (hn : 1 ≤ n) (h : refDecode cs n = .ok v) :
    2 ≤ v.inPos := by
  obtain ⟨m, rfl⟩ := Nat.exists_eq_add_of_le' hn
  rw [refDecode, refLoop_succ (Nat.succ_pos m)] at h
  obtain ⟨w, ht, hl⟩ := except_bind_eq_ok h
  obtain ⟨-, inside, -⟩ := readsToCursor_refToken (m + 1) refInit cs w ht (Nat.zero_le _)
  obtain ⟨onward, -⟩ := readsToCursor_refLoop (m + 1) m w cs v hl inside
  rw [refToken_eq_bind] at ht
  obtain ⟨u, hr, hf⟩ := except_bind_eq_ok ht
  rcases refReload_eq_ok hr with ⟨hne, -⟩ | ⟨-, b, rfl⟩
  · exact absurd rfl hne
  · exact (refFlagged_cost (v := refLoaded b refInit) hn hf).reads.trans onward

/-- Settles O60: the first pass reads two bytes, and the bound at the start is the rule's. -/
theorem consumptionBounds : Obligations.ConsumptionBounds := by
  intro bytes n v hn h
  obtain ⟨inside, -⟩ := trailingBytesIgnored bytes [] n v h
  have upper := refLoop_reads_le (k := 8) (v := refInit) (by decide) rfl h
  rw [readsLeft_of_wanted hn, show refInit.mask = 256 from rfl, reloadsLeft_due] at upper
  exact ⟨two_le_inPos_of_refDecode hn h, upper.trans_eq (Nat.zero_add _), inside⟩

end Sys2Proof.Machine
end

section
/-! SUPPORT. The state of a running decode and the variables of R114's program agree, and each operation of the machine keeps them so
(43_decode_sequence.md R114). -/

namespace Sys2Proof.Machine

/-- The registers and memories that the program of R114 has as variables hold their values; `control` once a CONTROL byte is read,
which the first pass does before all else. -/
structure Mirrors (s : State) (v : DecodeVars) : Prop where
  inPos : s.inPos = v.inPos
  outCount : s.outCount = v.out.length
  pos : s.pos.toNat = v.pos
  mask : s.mask.toNat = v.mask
  control : 0 < v.inPos → s.control.toNat = v.control
  loadsFirst : v.inPos = 0 → v.mask = 256
  slots : ∀ slot : Slot, winSlot s slot = v.win slot.toNat
  out : ∀ a : Nat, Memory.read .out s.out a = v.out[a]?

theorem mirrors_start (l n : Nat) (s : State) : Mirrors (start l n s) refInit where
  inPos := rfl
  outCount := rfl
  pos := rfl
  mask := rfl
  control := nofun
  loadsFirst _ := rfl
  slots _ := rfl
  out _ := rfl

namespace Mirrors

variable {s : State} {v : DecodeVars}

theorem raise (h : Mirrors s v) (k : EngineError) : Mirrors (raise k s) v := { h with }

theorem finishDecode (h : Mirrors s v) : Mirrors (finishDecode s) v := { h with }

theorem latchB0 (h : Mirrors s v) (b : Byte) : Mirrors (latchB0 b s) v := { h with }

theorem latchB1 (h : Mirrors s v) (b : Byte) : Mirrors (latchB1 b s) v := { h with }

/-- A byte read after the first CONTROL byte. -/
theorem advance (h : Mirrors s v) (hl : 0 < v.inPos) : Mirrors (advance s) { v with inPos := v.inPos + 1 } :=
  { h with
    inPos := congrArg (· + 1) h.inPos
    control := fun _ => h.control hl
    loadsFirst := nofun }

theorem loaded (h : Mirrors s v) (b : Byte) : Mirrors (loadControl b (Machine.advance s)) (refLoaded b v) :=
  { h with
    inPos := congrArg (· + 1) h.inPos
    mask := rfl
    control := fun _ => rfl
    loadsFirst := nofun }

theorem mask_eq_reload_iff (h : Mirrors s v) : s.mask = Config.MASK_RELOAD ↔ v.mask = 256 := by
  rw [← h.mask]
  exact ⟨congrArg BitVec.toNat, fun e => BitVec.eq_of_toNat_eq e⟩

theorem inPos_pos (h : Mirrors s v) (hm : v.mask ≠ 256) : 0 < v.inPos := Nat.pos_of_ne_zero fun e => hm (h.loadsFirst e)

/-- The mask of the machine is shifted, that of the program doubled. -/
theorem flagged (h : Mirrors s v) (hi : s.mask ∈ maskValues) (hm : v.mask ≠ 256) :
    Mirrors (flagStep s) { v with mask := v.mask * 2 } := by
  obtain ⟨k, -, -, mask, next⟩ := toNat_maskAdvance hi (mt h.mask_eq_reload_iff.1 hm)
  exact { h with
    mask := next.trans (congrArg (· * 2) (mask.symm.trans h.mask))
    loadsFirst := fun e => absurd e (h.inPos_pos hm).ne' }

/-- The bit under the mask, as the machine and as the program take it (R80). -/
theorem flagBit_iff (h : Mirrors s v) (hi : s.mask ∈ maskValues) (hm : v.mask ≠ 256) :
    flagBit s.control s.mask = true ↔ v.control / v.mask % 2 = 1 := by
  obtain ⟨k, hk, e, mask, -⟩ := toNat_maskAdvance hi (mt h.mask_eq_reload_iff.1 hm)
  rw [← h.control (h.inPos_pos hm), ← h.mask, mask, e, flagBit_twoPow _ hk, BitVec.getLsbD,
    Nat.testBit_eq_decide_div_mod_eq, decide_eq_true_eq]

/-- A byte emitted and written to the Window is `put` (R43, R46). -/
theorem emitted (h : Mirrors s v) (hwf : OutputWf s) (c : Byte) : Mirrors (winWrite c (emit c s)) (refPut c v) :=
  { h with
    outCount := by rw [winWrite_outCount, emit_outCount, h.outCount, refPut, List.length_append, List.length_singleton]
    pos := by rw [winWrite_pos, emit_pos, refPut, ← h.pos]; exact BitVec.toNat_add s.pos 1
    slots := fun slot => by
      rw [winSlot_winWrite (s := emit c s) hwf.winWf, emit_pos, winSlot_congr (emit_win c s), h.slots]
      simp only [refPut, ← h.pos, BitVec.toNat_inj]
    out := fun a => by
      rw [winWrite_out, emit_out, Memory.read_write hwf.outWf, h.out, h.outCount, refPut]
      rcases Nat.lt_trichotomy a v.out.length with hlt | rfl | hgt
      · rw [if_neg hlt.ne, List.getElem?_append_left hlt]
      · rw [if_pos rfl, List.getElem?_concat_length]
      · rw [if_neg hgt.ne', List.getElem?_eq_none hgt.le, List.getElem?_eq_none (by simp; omega)] }

theorem putLiteral (h : Mirrors s v) (hwf : OutputWf s) (c : Byte) : Mirrors (putLiteral c s) (refPut c v) :=
  { h.emitted hwf c with }

/-- The slot copied is the one that the program reads. -/
theorem copyStep (h : Mirrors s v) (hwf : OutputWf s) : Mirrors (copyStep s) (refPut (v.win s.msrc.toNat) v) := by
  rw [← h.slots]
  exact { h.emitted hwf (winSlot s s.msrc) with }

/-- The whole copy (R104). -/
theorem copySteps (n : Nat) {mp i : Nat} (h : Mirrors s v) (hwf : OutputWf s) (hi : s.msrc.toNat = (mp + i) % 4096) :
    Mirrors (copySteps n s) (refCopy mp n i v) := by
  induction n generalizing s v i with
  | zero => exact h
  | succ n ih =>
    have byte := h.copyStep hwf
    have wf : OutputWf (Machine.copyStep s) := (hwf.emitted (winSlot s s.msrc)).congr ⟨rfl, rfl, rfl, rfl⟩
    have next : (Machine.copyStep s).msrc.toNat = (mp + (i + 1)) % 4096 := by
      rw [copyStep_msrc]
      bv_omega
    rw [hi] at byte
    exact ih byte wf next

end Mirrors

end Sys2Proof.Machine
end

section
/-! SUPPORT. The phase machine follows R114's program part by part: where a part answers, the machine comes to a state that agrees
with its answer, and where it faults, to ERROR with its error (43_decode_sequence.md R114, R115). -/

namespace Sys2Proof.Machine

/-- A decode of `bytes` for `n` bytes of output is running, and the engine's invariants hold. -/
structure Decodes (bytes : List Byte) (n : Nat) (s : State) : Prop where
  inv : EngineInv s
  stream : StreamIs s bytes
  inLen : s.inLen = bytes.length
  targetLen : s.targetLen = n

theorem Decodes.seqStep {bytes : List Byte} {n : Nat} {s t : State} (h : Decodes bytes n s) (ht : seqStep s = .next t) :
    Decodes bytes n t := by
  obtain ⟨hcs, hin, htarget, -⟩ := seqStep_keeps ht
  refine ⟨seqStep_keeps_engineInv h.inv ht, ?_, hin.trans h.inLen, htarget.trans h.targetLen⟩
  unfold StreamIs
  rw [hcs]
  exact h.stream

/-- The machine comes from `s` to where a part of the program ends: with an answer, to a state for which `φ` holds; with a fault, to
ERROR, the variables of the fault in its registers. -/
def Follows {α : Type} (φ : α → State → Prop) (s : State) (x : Except DecodeFault α) : Prop :=
  match x with
  | .ok a => ∃ k t, seqSteps k s = .next t ∧ φ a t
  | .error e => ∃ k t, seqSteps k s = .next t ∧ t.phase = .error ∧ t.err = some e.kind ∧ Mirrors t e.final

namespace Follows

variable {α β : Type} {φ : α → State → Prop} {ψ : β → State → Prop}

theorem ok {s : State} {a : α} (h : φ a s) : Follows φ s (.ok a) := ⟨0, s, rfl, h⟩

/-- What follows from a later state follows from an earlier one. -/
theorem of_seqSteps {k : Nat} {s t : State} {x : Except DecodeFault α} (ht : seqSteps k s = .next t) (h : Follows φ t x) :
    Follows φ s x := by
  match x, h with
  | .ok _, ⟨j, u, hu, h⟩ => exact ⟨k + j, u, (seqSteps_add ht j).trans hu, h⟩
  | .error _, ⟨j, u, hu, h⟩ => exact ⟨k + j, u, (seqSteps_add ht j).trans hu, h⟩

theorem of_seqStep {s t : State} {x : Except DecodeFault α} (ht : seqStep s = .next t) (h : Follows φ t x) : Follows φ s x :=
  of_seqSteps ((seqSteps_one s).trans ht) h

/-- One part after another, an error ending the whole. -/
theorem bind {bytes : List Byte} {n : Nat} {s : State} {x : Except DecodeFault α} {f : α → Except DecodeFault β}
    (hd : Decodes bytes n s) (h : Follows φ s x)
    (hf : ∀ a t, x = .ok a → Decodes bytes n t → φ a t → Follows ψ t (f a)) : Follows ψ s (x.bind f) := by
  match x, h with
  | .error _, h => exact h
  | .ok a, ⟨k, t, ht, h⟩ =>
    exact of_seqSteps ht (hf a t rfl (seqSteps_keeps (fun _ _ => Decodes.seqStep) hd ht) h)

end Follows

section

variable {bytes : List Byte} {n : Nat} {s : State} {v : DecodeVars}

/-- A StreamRead is the program's `read`. -/
theorem follows_refRead {k : Byte → State → State} (hd : Decodes bytes n s) (hm : Mirrors s v)
    (hs : seqStep s = streamRead k s) :
    Follows (fun x t => x.2 = { v with inPos := v.inPos + 1 } ∧ t = k x.1 (advance s)) s (refRead bytes v) := by
  unfold refRead
  cases hb : bytes[v.inPos]? with
  | none =>
    have ended : s.inLen ≤ s.inPos := by rw [hd.inLen, hm.inPos]; exact List.getElem?_eq_none_iff.1 hb
    exact ⟨1, _, (seqSteps_one s).trans (hs.trans (streamRead_of_le ended)), rfl, rfl, hm.raise _⟩
  | some b =>
    obtain ⟨hlt, -⟩ := List.getElem?_eq_some_iff.1 hb
    have read : Memory.read .cs s.cs s.inPos = some b := by rw [hm.inPos, hd.stream _ hlt, hb]
    have left : s.inPos < s.inLen := by rw [hd.inLen, hm.inPos]; exact hlt
    exact ⟨1, _, (seqSteps_one s).trans (hs.trans (streamRead_of_some left read)), rfl, rfl⟩

/-- At the loop head with output wanted, the reload leaves a flag to be tested. -/
theorem follows_refReload (hd : Decodes bytes n s) (hm : Mirrors s v) (hp : s.phase = .query) (hw : s.outCount ≠ s.targetLen) :
    Follows (fun u t => t.phase = .query ∧ t.outCount ≠ t.targetLen ∧ u.mask ≠ 256 ∧ Mirrors t u) s (refReload bytes v) := by
  by_cases due : v.mask = 256
  · rw [refReload_of_due due]
    refine (follows_refRead hd hm (seqStep_of_reloadDue hp hw (hm.mask_eq_reload_iff.2 due))).bind hd ?_
    rintro ⟨b, u⟩ t - - ⟨rfl, rfl⟩
    exact .ok ⟨hp, hw, (by decide : (1 : Nat) ≠ 256), hm.loaded b⟩
  · rw [refReload, if_neg due]
    exact .ok ⟨hp, hw, due, hm⟩

/-- The check and the copy of a latched pair (R100, R103). -/
theorem follows_refPair (hd : Decodes bytes n s) (hm : Mirrors s v) (hp : s.phase = .mChk) :
    Follows (fun w t => t.phase = .query ∧ Mirrors t w) s (refPair n s.b0 s.b1 v) := by
  have hi := hd.inv
  have running : s.phase ≠ .idle := by simp [hp]
  have wanted := hi.wanted (by simp [hp])
  obtain ⟨rawLength, -, position⟩ := toNat_pairFields s.b0 s.b1
  have checked : seqStep s = .next (matchCheck s) := by simp only [seqStep, hp]
  unfold refPair
  extract_lets mp ml d0 d r cc
  have distance_eq : (distance s.pos (matchPositionOf s.b0 s.b1)).toNat = d := by
    rw [toNat_distance, position, hm.pos]
  have count_eq : (copyCount (rawLengthOf s.b0) s.targetLen s.outCount).toNat = cc := by
    rw [toNat_copyCount, (toNat_matchLength _).1, rawLength, hd.targetLen, hm.outCount]
    simp only [cc, r, ml]
    split_ifs <;> omega
  by_cases far : v.out.length < d
  · have invalid : backRefInvalid s.pos (matchPositionOf s.b0 s.b1) s.outCount = true :=
      decide_eq_true (by rw [distance_eq, hm.outCount]; exact far)
    rw [if_pos far]
    exact ⟨1, _, (seqSteps_one s).trans checked, by rw [matchCheck_of_invalid invalid]; exact ⟨rfl, rfl, hm.raise _⟩⟩
  · have valid : backRefInvalid s.pos (matchPositionOf s.b0 s.b1) s.outCount = false :=
      decide_eq_false (by rw [distance_eq, hm.outCount]; exact far)
    rw [if_neg far, ← count_eq]
    rw [matchCheck_of_valid valid] at checked
    refine .of_seqStep checked (.of_seqSteps (seqSteps_copy _ _ rfl rfl) (.ok ⟨?_, ?_⟩))
    · exact copySteps_all_phase (copyCount_bounds _ wanted).1
    · refine Mirrors.copySteps _ { hm with } ⟨hi.winWf, hi.outWf, hi.winSlots, hi.posOut running⟩ ?_
      have lt := (matchPositionOf s.b0 s.b1).isLt
      simp only [Nat.add_zero, mp]
      omega

/-- A MATCH: both reads, then the check and the copy (R106). -/
theorem follows_refMatch (hd : Decodes bytes n s) (hm : Mirrors s v) (hl : 0 < v.inPos) (hp : s.phase = .mB0) :
    Follows (fun w t => t.phase = .query ∧ Mirrors t w) s (refMatch bytes n v) := by
  rw [refMatch_eq_bind]
  refine (follows_refRead (k := latchB0) hd hm (by simp only [seqStep, hp])).bind hd ?_
  rintro ⟨b0, u⟩ t - hd ⟨rfl, rfl⟩
  refine (follows_refRead (k := latchB1) hd ((hm.advance hl).latchB0 b0) rfl).bind hd ?_
  rintro ⟨b1, u⟩ t - hd ⟨rfl, rfl⟩
  exact follows_refPair hd ((((hm.advance hl).latchB0 b0).advance (Nat.succ_pos _)).latchB1 b1) rfl

/-- The flag query, and the token that its bit announces (R82). -/
theorem follows_refFlagged (hd : Decodes bytes n s) (hm : Mirrors s v) (hp : s.phase = .query)
    (hw : s.outCount ≠ s.targetLen) (hmask : v.mask ≠ 256) :
    Follows (fun w t => t.phase = .query ∧ Mirrors t w) s (refFlagged n v bytes) := by
  have values := hd.inv.maskValue (by simp [hp])
  have flagged := seqStep_of_flagDue hp hw (mt hm.mask_eq_reload_iff.1 hmask)
  have bit := hm.flagBit_iff values hmask
  have hl := hm.inPos_pos hmask
  have hm := hm.flagged values hmask
  have hd := hd.seqStep flagged
  refine .of_seqStep flagged ?_
  unfold refFlagged
  split_ifs with hb
  · have phase : (flagStep s).phase = .lit := by rw [flagStep_phase, bit.2 hb]; rfl
    have wf := hd.inv.outputWf (by rw [phase]; nofun)
    refine (follows_refRead (k := putLiteral) hd hm (by simp only [seqStep, phase])).bind hd ?_
    rintro ⟨c, u⟩ t - - ⟨rfl, rfl⟩
    exact .ok ⟨rfl, (hm.advance hl).putLiteral (wf.congr ⟨rfl, rfl, rfl, rfl⟩) c⟩
  · have phase : (flagStep s).phase = .mB0 := by
      rw [flagStep_phase, Bool.eq_false_iff.2 (mt bit.1 hb)]
      rfl
    exact follows_refMatch hd hm hl phase

theorem follows_refToken (hd : Decodes bytes n s) (hm : Mirrors s v) (hp : s.phase = .query) (hw : s.outCount ≠ s.targetLen) :
    Follows (fun w t => t.phase = .query ∧ Mirrors t w) s (refToken bytes n v) := by
  rw [refToken_eq_bind]
  refine (follows_refReload hd hm hp hw).bind hd ?_
  rintro u t - hd ⟨hp, hw, hmask, hm⟩
  exact follows_refFlagged hd hm hp hw hmask

/-- A pass produces a byte. -/
theorem length_lt_of_refToken {w : DecodeVars} (hw : v.out.length < n) (h : refToken bytes n v = .ok w) :
    v.out.length < w.out.length := by
  rw [refToken_eq_bind] at h
  obtain ⟨u, hr, hf⟩ := except_bind_eq_ok h
  rcases refReload_eq_ok hr with ⟨-, rfl⟩ | ⟨-, b, rfl⟩
  · exact (refFlagged_cost hw hf).produces
  · exact (refFlagged_cost (v := refLoaded b v) hw hf).produces

/-- Where the program wants no more output the machine's is complete. -/
theorem Mirrors.outCount_eq_targetLen (hd : Decodes bytes n s) (hm : Mirrors s v) (hp : s.phase = .query)
    (h : ¬v.out.length < n) : s.outCount = s.targetLen := by
  have bound := hd.inv.outBound (by simp [hp])
  rw [hm.outCount, hd.targetLen] at bound ⊢
  omega

/-- The loop, with passes enough for the bytes wanted: it ends at the loop head with the output complete. -/
theorem follows_refLoop {fuel : Nat} (hd : Decodes bytes n s) (hm : Mirrors s v) (hp : s.phase = .query)
    (hn : n ≤ v.out.length + fuel) :
    Follows (fun w t => t.phase = .query ∧ t.outCount = t.targetLen ∧ Mirrors t w) s (refLoop bytes n fuel v) := by
  induction fuel generalizing s v with
  | zero => exact .ok ⟨hp, hm.outCount_eq_targetLen hd hp (by omega), hm⟩
  | succ fuel ih =>
    by_cases hw : v.out.length < n
    · rw [refLoop_succ hw]
      refine (follows_refToken hd hm hp (by rw [hm.outCount, hd.targetLen]; exact hw.ne)).bind hd ?_
      rintro w t hx hd ⟨hp, hm⟩
      have more := length_lt_of_refToken hw hx
      exact ih hd hm hp (by omega)
    · rw [refLoop, if_neg hw]
      exact .ok ⟨hp, hm.outCount_eq_targetLen hd hp hw, hm⟩

end

/-- The whole decode, from START on. -/
theorem follows_refDecode {s : State} {bytes : List Byte} (n : Nat) (hi : EngineInv s) (hb : StreamIs s bytes) :
    Follows (fun v t => t.phase = .query ∧ t.outCount = t.targetLen ∧ Mirrors t v) (start bytes.length n s) (refDecode bytes n) :=
  follows_refLoop ⟨start_engineInv _ n hi.csWf, hb, rfl, rfl⟩ (mirrors_start _ n s) rfl (Nat.le_add_left _ _)

end Sys2Proof.Machine
end

section
/-! SUPPORT. The machine running alone comes to the end that the phase machine's single steps come to, and the result read there is
the reference function's (43_decode_sequence.md R114, R121). -/

namespace Sys2Proof.Machine

/-- A step of the engine alone is at least one step of the phase machine, and when it is more it answers a next state. -/
theorem step_alone_eq_seqSteps_succ {s : State} (hs : s.schedule = []) :
    ∃ m, step s = seqSteps (m + 1) s ∧ (0 < m → ∃ t, step s = .next t) := by
  obtain ⟨pair, single⟩ := tokenStepIsPhaseSteps s hs
  by_cases hf : ∃ l p, fetch s = some (.matchRef l p)
  · obtain ⟨l, p, hf⟩ := hf
    have three : 1 ≤ if backRefInvalid s.pos p s.outCount then 3 else 3 + (copyCount l s.targetLen s.outCount).toNat := by
      split_ifs <;> omega
    obtain ⟨m, hm⟩ := Nat.exists_eq_add_of_le' three
    have run : step s = exec (.matchRef l p) s := by simp only [step, hs, hf]
    exact ⟨m, hm ▸ pair l p hf, fun _ => run ▸ exec_next _ s⟩
  · exact ⟨0, single fun l p e => hf ⟨l, p, e⟩, fun h => absurd h (Nat.lt_irrefl 0)⟩

/-- A run passes through the state of each of its beginnings. -/
theorem seqSteps_split {m n : Nat} {s t : State} (h : seqSteps (m + n) s = .next t) :
    ∃ u, seqSteps m s = .next u ∧ seqSteps n u = .next t := by
  induction m generalizing s with
  | zero => exact ⟨s, rfl, Nat.zero_add n ▸ h⟩
  | succ m ih =>
    rw [Nat.succ_add] at h
    simp only [seqSteps] at h ⊢
    split at h
    · exact ih h
    · cases h
    · cases h

/-- The sequencer makes no host move due. -/
theorem seqSteps_schedule {n : Nat} {s t : State} (hs : s.schedule = []) (h : seqSteps n s = .next t) : t.schedule = [] :=
  seqSteps_keeps (P := fun s => s.schedule = [])
    (fun _ _ hs h => by
      obtain ⟨-, -, -, -, -, schedule, -⟩ := seqStep_keeps h
      exact schedule.trans hs)
    hs h

/-- No run goes on beyond the end of the decode (R124). -/
theorem seqSteps_of_ended {s : State} (h : s.phase.ended = true) (n : Nat) : seqSteps (n + 1) s = .fault .noStep := by
  have stopped : s.phase.inRun = false := by
    cases hp : s.phase <;> simp [hp, Phase.ended, Phase.inRun] at h ⊢
  simp only [seqSteps, seqStep_of_not_inRun stopped]

/-- Where single steps of the phase machine end a decode, the machine running alone ends it in the same state: no step of the machine
passes over the end. -/
theorem runSteps_of_seqSteps {k : Nat} {s t : State} (hs : s.schedule = []) (h : seqSteps k s = .next t)
    (ended : t.phase.ended = true) : ∃ j, runSteps j s = .next t := by
  induction k using Nat.strong_induction_on generalizing s with
  | h k ih =>
    rcases k with _ | k
    · cases h
      exact ⟨0, rfl⟩
    obtain ⟨m, run, next⟩ := step_alone_eq_seqSteps_succ hs
    rcases Nat.lt_or_ge k m with beyond | within
    · obtain ⟨u, hu⟩ := next (by omega)
      have stop := seqSteps_add h (m - k - 1 + 1)
      rw [show k + 1 + (m - k - 1 + 1) = m + 1 by omega, ← run, hu, seqSteps_of_ended ended] at stop
      cases stop
    · rw [show k + 1 = m + 1 + (k - m) by omega] at h
      obtain ⟨u, first, rest⟩ := seqSteps_split h
      obtain ⟨j, hj⟩ := ih (k - m) (by omega) (seqSteps_schedule hs first) rest
      exact ⟨j + 1, by simp only [runSteps, run, first, hj]⟩

/-- The output of the program is what the host is given in DONE. -/
theorem Mirrors.outBytes_eq {s : State} {v : DecodeVars} (h : Mirrors s v) : outBytes s s.outCount = v.out := by
  have listed : ∀ a : Nat, a < s.outCount → (Memory.read .out s.out a).isSome = true := fun a ha => by
    rw [h.out, List.getElem?_eq_getElem (h.outCount ▸ ha)]
    rfl
  obtain ⟨length, bytes⟩ := outBytes_of_listed listed
  refine List.ext_getElem? fun a => ?_
  rcases Nat.lt_or_ge a s.outCount with hlt | hge
  · rw [← bytes a hlt, h.out]
  · rw [List.getElem?_eq_none (length.le.trans hge), List.getElem?_eq_none (h.outCount ▸ hge)]

/-- Settles O57: the phase machine follows the program from START to the loop head with the output complete, where it ends the decode,
or to ERROR; and the machine running alone comes to the same end. -/
theorem machineComputesReference : Obligations.MachineComputesReference := by
  rintro s bytes _ n hi hs rfl hb
  have follows := follows_refDecode n hi hb
  cases hx : refDecode bytes n with
  | ok v =>
    rw [hx] at follows
    obtain ⟨k, t, ht, hp, full, hm⟩ := follows
    have last : seqSteps (k + 1) (start bytes.length n s) = .next (finishDecode t) :=
      (seqSteps_add ht 1).trans ((seqSteps_one t).trans (seqStep_of_full hp full))
    obtain ⟨j, hj⟩ := runSteps_of_seqSteps (s := start bytes.length n s) hs last rfl
    have result : decodeResult (finishDecode t) = some (.ok v.out) := by
      rw [decodeResult_done rfl, ← hm.finishDecode.outBytes_eq, finishDecode_outCount, finishDecode_targetLen, full]
    exact ⟨j, _, hj, rfl, result, hm.inPos, hm.outCount, hm.pos, hm.mask, fun hn =>
      hm.control (Nat.lt_of_lt_of_le Nat.zero_lt_two (two_le_inPos_of_refDecode hn hx))⟩
  | error e =>
    rw [hx] at follows
    obtain ⟨k, t, ht, hp, herr, hm⟩ := follows
    obtain ⟨j, hj⟩ := runSteps_of_seqSteps (s := start bytes.length n s) hs ht (by rw [hp]; rfl)
    have result : decodeResult t = some (.err e.kind) := by rw [decodeResult_error hp, herr, Option.map_some]
    exact ⟨j, t, hj, hp, result, hm.inPos, hm.outCount, hm.pos, hm.mask, hm.control⟩

end Sys2Proof.Machine
end

section
/-! SUPPORT. Errors and the phases outside RUN (60_exceptions.md R126, R127, R131, R134): what a step that takes an error does, where
each error arises, and that only the host moves the engine out of IDLE, DONE and ERROR. -/

namespace Sys2Proof.Machine

/-- Settles O33: a step into ERROR takes an error, and the sequencer has no step outside RUN. -/
theorem errorEntryWritesErrAndPhase : Obligations.ErrorEntryWritesErrAndPhase := by
  intro s t h ht
  rcases seqStep_err h with ⟨hne, -⟩ | ⟨k, rfl⟩
  · exact absurd ht hne
  · exact ⟨⟨k, rfl⟩, seqStep_of_not_inRun rfl⟩

/-- A step that latches an error where none was is a StreamRead at the end of the stream (R126), or a check that fails (R127). -/
theorem seqStep_takes_error {s t : State} {k : EngineError} (hs : s.err = none) (h : seqStep s = .next t) (ht : t.err = some k) :
    t = raise k s ∧
      (k = .malformedInput ∧ s.inLen ≤ s.inPos ∧
          (s.phase = .query ∧ s.outCount ≠ s.targetLen ∧ s.mask = Config.MASK_RELOAD ∨ s.phase = .lit ∨ s.phase = .mB0 ∨
            s.phase = .mB1) ∨
        k = .invalidBackRef ∧ s.phase = .mChk ∧ backRefInvalid s.pos (matchPositionOf s.b0 s.b1) s.outCount = true) := by
  rcases seqStep_cases h with ⟨-, -, rfl⟩ | ⟨-, -, -, rfl⟩ | ⟨hp, hl, rfl⟩ | ⟨-, v, -, h⟩ | ⟨hp, rfl⟩ | ⟨-, rfl⟩
  · simp [hs] at ht
  · simp [hs] at ht
  · cases ht
    exact ⟨rfl, .inl ⟨rfl, hl, hp⟩⟩
  · rcases h with ⟨-, -, -, rfl⟩ | ⟨-, rfl⟩ | ⟨-, rfl⟩ | ⟨-, rfl⟩ <;> simp [hs] at ht
  · rcases matchCheck_cases s with ⟨hv, e⟩ | ⟨-, e⟩ <;> rw [e] at ht ⊢
    · cases ht
      exact ⟨rfl, .inr ⟨rfl, hp, hv⟩⟩
    · simp [hs] at ht
  · simp [hs] at ht

/-- Settles O34: before a step of the sequencer no error is latched, so one found after it was taken there; the cursor never passes
`in_len`, and inside a token, as at a loop head that goes on, output is wanted. -/
theorem errorsAriseOnlyAtTheirPlaces : Obligations.ErrorsAriseOnlyAtTheirPlaces := by
  intro s t hi h
  have clean : s.err = none := hi.err_eq_none fun hp => by simpa [hp, Phase.inRun] using seqStep_inRun h
  have inBound := hi.inBound (ne_idle_of_seqStep h)
  have outBound := hi.outBound (ne_idle_of_seqStep h)
  refine ⟨fun ht => ?_, fun ht => ?_⟩
  · obtain ⟨rfl, ⟨-, hl, hp⟩ | ⟨hk, -⟩⟩ := seqStep_takes_error clean h ht
    · have ended : s.inPos = s.inLen := Nat.le_antisymm inBound hl
      rcases hp with ⟨hp, hw, hm⟩ | hp | hp | hp
      · exact ⟨by simp [hp], ended, ended, Nat.lt_of_le_of_ne outBound hw, fun _ => hm⟩
      all_goals exact ⟨by simp [hp], ended, ended, hi.wanted (by simp [hp]), by simp [hp]⟩
    · cases hk
  · obtain ⟨-, ⟨hk, -⟩ | ⟨-, hp, hv⟩⟩ := seqStep_takes_error clean h ht
    · cases hk
    · exact ⟨hp, of_decide_eq_true hv⟩

/-- R111: outside RUN a step is a move of the host. -/
theorem exists_hostStep_of_not_inRun {s t : State} (hr : s.phase.inRun = false) (h : step s = .next t) :
    ∃ a rest, s.schedule = .host a :: rest ∧ hostStep a { s with schedule := rest } = .next t := by
  rcases step_cases h with ⟨hs, -⟩ | ⟨rest, -, hseq⟩ | hostMove
  · rw [step_of_fetch_none hs (fetch_of_not_inRun hr), seqStep_of_not_inRun hr] at h
    cases h
  · have running := seqStep_inRun hseq
    simp [hr] at running
  · exact hostMove

/-- R134: the host changes `phase` by START and by hard reset alone. -/
theorem hostStep_changes_phase {a : HostAction} {s t : State} (h : hostStep a s = .next t) (hne : t.phase ≠ s.phase) :
    (∃ v, a = .writeReg 0 v ∧ v.testBit 0 = true ∧ t = start s.inLenReg s.targetLenReg s) ∨
    (a = .hardReset ∧ t = hardReset s) := by
  rcases hostStep_cases h with ⟨⟨v, rfl, hv⟩, -, rfl⟩ | ⟨rfl, rfl⟩ | ⟨x, b, -, -, -, rfl⟩ | ⟨n, v, -, e, -, -⟩
  · exact .inl ⟨v, rfl, hv, rfl⟩
  · exact .inr ⟨rfl, rfl⟩
  · exact absurd rfl hne
  · exact absurd (congrArg State.phase e) hne

/-- Settles O37: outside RUN only the host moves, and only its two commands change `phase`. -/
theorem phasesOutsideRunAreLeftOnlyByHost : Obligations.PhasesOutsideRunAreLeftOnlyByHost := by
  intro s t hp h hne
  obtain ⟨a, rest, hs, h⟩ := exists_hostStep_of_not_inRun (not_inRun_iff_mem.2 hp) h
  refine ⟨rest, ?_⟩
  rcases hostStep_changes_phase h hne with ⟨v, rfl, hv, rfl⟩ | ⟨rfl, rfl⟩
  · exact .inl ⟨v, hs, hv, rfl, rfl, rfl, rfl⟩
  · exact .inr ⟨hs, rfl, rfl⟩

end Sys2Proof.Machine
end

section
/-! SUPPORT. What stands in Window slots not written in this decode cannot be observed (10_state.md R28; 42_match.md R105;
70_reset_and_hazards.md R156): two states that differ only there take the same steps of the phase machine. -/

namespace Sys2Proof.Machine

/-- The state with another Window. -/
def withWindow (w : Memory) (s : State) : State := { s with win := w }

/-- Two outcomes alike: next states that are related, or the same stop. -/
inductive AlikeOutcome (R : State → State → Prop) : Host.Outcome State Fault Refusal → Host.Outcome State Fault Refusal → Prop where
  | next {x y : State} (h : R x y) : AlikeOutcome R (.next x) (.next y)
  | fault (r : Fault) : AlikeOutcome R (.fault r) (.fault r)
  | refused (r : Refusal) : AlikeOutcome R (.refused r) (.refused r)

/-- Where `pos = (1 + out_count) mod 4096` a valid back-reference leads to a slot written in this decode (R99, R105). -/
theorem OutputWf.written_of_backRefValid {s : State} (h : OutputWf s) {p : Slot} (hv : backRefInvalid s.pos p s.outCount = false) :
    written s p = true := by
  obtain ⟨valid_iff, -⟩ := backReferenceValidity.2 s p h.posOut
  exact valid_iff.1 hv

/-- A slot that is written after an emission is the one just written, or an earlier one. -/
theorem OutputWf.written_before_emission {s : State} (h : OutputWf s) {c : Byte} {slot : Slot}
    (hw : written (winWrite c (emit c s)) slot = true) (hne : slot ≠ s.pos) : written s slot = true := by
  have hpos := h.posOut
  have hne : slot.toNat ≠ s.pos.toNat := fun e => hne (BitVec.eq_of_toNat_eq e)
  rw [written_eq_true_iff, winWrite_outCount, emit_outCount] at hw
  rw [written_eq_true_iff]
  omega

/-- What a copy step does beside its emission: source and count move on (R103). -/
def copyAdvance (s : State) : State :=
  { s with msrc := s.msrc + 1, cnt := s.cnt - 1, phase := if s.cnt - 1 = 0 then .query else .copy }

theorem copyStep_eq_copyAdvance (s : State) :
    copyStep s = copyAdvance (winWrite (winSlot s s.msrc) (emit (winSlot s s.msrc) s)) := rfl

namespace SameWrittenSlots

variable {s t : State}

theorem exists_withWindow (h : SameWrittenSlots s t) : ∃ w, t = withWindow w s := ⟨t.win, h.rest⟩

/-- A function of the state in which the Window has no part. -/
theorem reading_eq {A : Type} (h : SameWrittenSlots s t) (f : State → A) (hf : ∀ w, f (withWindow w s) = f s) : f t = f s := by
  obtain ⟨w, rfl⟩ := h.exists_withWindow
  exact hf w

/-- An update that neither reads nor writes the Window and keeps `out_count`. -/
theorem map {f : State → State} (h : SameWrittenSlots s t) (hf : ∀ w u, f (withWindow w u) = withWindow w (f u))
    (hc : (f s).outCount = s.outCount) : SameWrittenSlots (f s) (f t) := by
  obtain ⟨w, rfl⟩ := h.exists_withWindow
  have kept : f s = withWindow s.win (f s) := hf s.win s
  rw [hf]
  refine ⟨rfl, fun slot hw => ?_⟩
  calc winSlot (withWindow w (f s)) slot = winSlot (withWindow w s) slot := winSlot_congr rfl slot
    _ = winSlot s slot := h.slots slot (written_congr hc slot ▸ hw)
    _ = winSlot (f s) slot := (winSlot_congr (congrArg State.win kept) slot).symm

theorem raise (h : SameWrittenSlots s t) (k : EngineError) : SameWrittenSlots (raise k s) (raise k t) :=
  h.map (fun _ _ => rfl) rfl

theorem advance (h : SameWrittenSlots s t) : SameWrittenSlots (advance s) (advance t) :=
  h.map (fun _ _ => rfl) rfl

theorem matchCheck (h : SameWrittenSlots s t) : SameWrittenSlots (matchCheck s) (matchCheck t) := by
  refine h.map (fun w u => ?_) ?_
  · simp only [Machine.matchCheck, apply_ite (withWindow w)]
    rfl
  · rcases matchCheck_cases s with ⟨-, e⟩ | ⟨-, e⟩ <;> simp [e]

/-- The same byte emitted and written to the Window. -/
theorem emitted (h : SameWrittenSlots s t) (hs : OutputWf s) (ht : Memory.wf .win t.win = true) (c : Byte) :
    SameWrittenSlots (winWrite c (emit c s)) (winWrite c (emit c t)) := by
  obtain ⟨w, rfl⟩ := h.exists_withWindow
  refine ⟨rfl, fun slot hw => ?_⟩
  rw [winSlot_winWrite (s := emit c s) hs.winWf, winSlot_winWrite (s := emit c (withWindow w s)) ht]
  by_cases hp : slot = s.pos
  · exact (if_pos hp).trans (if_pos hp).symm
  · have earlier := h.slots slot (hs.written_before_emission hw hp)
    exact (if_neg hp).trans (earlier.trans (if_neg hp).symm)

theorem putLiteral (h : SameWrittenSlots s t) (hs : OutputWf s) (ht : Memory.wf .win t.win = true) (c : Byte) :
    SameWrittenSlots (putLiteral c s) (putLiteral c t) :=
  (h.emitted hs ht c).map (f := fun u => { u with phase := .query }) (fun _ _ => rfl) rfl

/-- The slot that a copy step reads was written in this decode, so that both states copy the same byte (R105). -/
theorem copyStep (h : SameWrittenSlots s t) (hs : OutputWf s) (ht : Memory.wf .win t.win = true)
    (hsrc : backRefInvalid s.pos s.msrc s.outCount = false) : SameWrittenSlots (copyStep s) (copyStep t) := by
  have msrc : t.msrc = s.msrc := h.reading_eq State.msrc fun _ => rfl
  have source : winSlot t t.msrc = winSlot s s.msrc := by rw [msrc, h.slots _ (hs.written_of_backRefValid hsrc)]
  rw [copyStep_eq_copyAdvance, copyStep_eq_copyAdvance, source]
  exact (h.emitted hs ht _).map (f := copyAdvance) (fun _ _ => rfl) rfl

theorem streamRead (h : SameWrittenSlots s t) {k : Byte → State → State}
    (hk : ∀ v, SameWrittenSlots (k v (Machine.advance s)) (k v (Machine.advance t))) :
    AlikeOutcome SameWrittenSlots (streamRead k s) (streamRead k t) := by
  have inPos : t.inPos = s.inPos := h.reading_eq State.inPos fun _ => rfl
  have inLen : t.inLen = s.inLen := h.reading_eq State.inLen fun _ => rfl
  have cs : t.cs = s.cs := h.reading_eq State.cs fun _ => rfl
  unfold Machine.streamRead
  rw [inPos, inLen, cs]
  split_ifs
  · exact .next (h.raise _)
  · cases Memory.read .cs s.cs s.inPos with
    | none => exact .refused _
    | some v => exact .next (hk v)

theorem queryStep (h : SameWrittenSlots s t) : AlikeOutcome SameWrittenSlots (queryStep s) (queryStep t) := by
  have outCount : t.outCount = s.outCount := h.reading_eq State.outCount fun _ => rfl
  have targetLen : t.targetLen = s.targetLen := h.reading_eq State.targetLen fun _ => rfl
  have mask : t.mask = s.mask := h.reading_eq State.mask fun _ => rfl
  unfold Machine.queryStep
  rw [outCount, targetLen, mask]
  split_ifs
  · exact .next (h.map (f := finishDecode) (fun _ _ => rfl) rfl)
  · exact h.streamRead fun v => h.advance.map (f := loadControl v) (fun _ _ => rfl) rfl
  · exact .next (h.map (f := flagStep) (fun _ _ => rfl) rfl)

/-- Only LIT and COPY touch the Window, and of its bytes COPY alone reads one. -/
theorem seqStep (h : SameWrittenSlots s t) (hs : EngineInv s) (ht : EngineInv t) :
    AlikeOutcome SameWrittenSlots (seqStep s) (seqStep t) := by
  have phase : t.phase = s.phase := h.reading_eq State.phase fun _ => rfl
  unfold Machine.seqStep
  rw [phase]
  cases hp : s.phase with
  | query => exact h.queryStep
  | lit =>
    have output := hs.outputWf (by simp [hp])
    exact h.streamRead fun v => h.advance.putLiteral { output with } ht.winWf v
  | mB0 => exact h.streamRead fun v => h.advance.map (f := latchB0 v) (fun _ _ => rfl) rfl
  | mB1 => exact h.streamRead fun v => h.advance.map (f := latchB1 v) (fun _ _ => rfl) rfl
  | mChk => exact .next h.matchCheck
  | copy => exact .next (h.copyStep (hs.outputWf (by simp [hp])) ht.winWf (hs.copySource hp))
  | idle | done | error => exact .fault _

theorem seqSteps (n : Nat) (h : SameWrittenSlots s t) (hs : EngineInv s) (ht : EngineInv t) :
    AlikeOutcome SameWrittenSlots (seqSteps n s) (seqSteps n t) := by
  induction n generalizing s t with
  | zero => exact .next h
  | succ n ih =>
    have alike := h.seqStep hs ht
    unfold Machine.seqSteps
    generalize hx : Machine.seqStep s = x, hy : Machine.seqStep t = y at alike
    cases alike with
    | next h => exact ih h (seqStep_keeps_engineInv hs hx) (seqStep_keeps_engineInv ht hy)
    | fault r => exact .fault r
    | refused r => exact .refused r

theorem fetch_eq (h : SameWrittenSlots s t) : fetch t = fetch s := h.reading_eq fetch fun _ => rfl

/-- A step of the engine alone is as many steps of the phase machine in both states, since both fetch the same instruction. -/
theorem step (h : SameWrittenSlots s t) (hs : EngineInv s) (ht : EngineInv t) (alone : s.schedule = []) :
    AlikeOutcome SameWrittenSlots (step s) (step t) := by
  have pos : t.pos = s.pos := h.reading_eq State.pos fun _ => rfl
  have outCount : t.outCount = s.outCount := h.reading_eq State.outCount fun _ => rfl
  have targetLen : t.targetLen = s.targetLen := h.reading_eq State.targetLen fun _ => rfl
  obtain ⟨pairS, singleS⟩ := tokenStepIsPhaseSteps s alone
  obtain ⟨pairT, singleT⟩ := tokenStepIsPhaseSteps t ((h.reading_eq State.schedule fun _ => rfl).trans alone)
  rw [h.fetch_eq] at singleT
  by_cases hf : ∃ l p, fetch s = some (.matchRef l p)
  · obtain ⟨l, p, hf⟩ := hf
    rw [pairS l p hf, pairT l p (h.fetch_eq.trans hf), pos, outCount, targetLen]
    exact h.seqSteps _ hs ht
  · have noPair : ∀ l p, fetch s ≠ some (.matchRef l p) := fun l p e => hf ⟨l, p, e⟩
    rw [singleS noPair, singleT noPair]
    exact h.seqSteps 1 hs ht

end SameWrittenSlots

/-- After START no slot is written (R28, R110). -/
theorem written_start (l n : Nat) (s : State) (slot : Slot) : written (start l n s) slot = false :=
  written_eq_false_iff.2 ⟨by simp, fun h => h⟩

/-- Settles O51: the one read of the Window is that of a copy, whose source slot is written; and right after START none is. -/
theorem unwrittenSlotsNeverReachOutput : Obligations.UnwrittenSlotsNeverReachOutput := by
  refine ⟨fun s t hs ht alone h => ?_, fun s l n fill => ⟨rfl, fun slot hw => ?_⟩⟩
  · have alike := h.step hs ht alone
    generalize step s = x, step t = y at alike
    cases alike with
    | next h => exact ⟨h, (h.reading_eq State.out fun _ => rfl).symm⟩
    | fault r => rfl
    | refused r => rfl
  · rw [written_start] at hw
    cases hw

end Sys2Proof.Machine
end

section
/-! SUPPORT. Where the bytes of the output come from (70_reset_and_hazards.md R156): a literal's byte is read from the stream, a
copied byte is one of the output's. -/

namespace Sys2Proof.Machine

/-- A sequencer step leaves output and Window alone, puts a literal read at the cursor, or copies a byte (R90, R103). -/
theorem seqStep_output_cases {s t : State} (h : seqStep s = .next t) :
    SameOutput s t ∨
    (s.phase = .lit ∧ s.inPos < s.inLen ∧ ∃ v, Memory.read .cs s.cs s.inPos = some v ∧ t = putLiteral v (advance s)) ∨
    (s.phase = .copy ∧ t = copyStep s) := by
  rcases seqStep_cases h with ⟨-, -, rfl⟩ | ⟨-, -, -, rfl⟩ | ⟨-, -, rfl⟩ | ⟨hl, v, hv, h⟩ | ⟨-, rfl⟩ | ⟨hp, rfl⟩
  · exact .inl ⟨rfl, rfl, rfl, rfl⟩
  · exact .inl ⟨rfl, rfl, rfl, rfl⟩
  · exact .inl ⟨rfl, rfl, rfl, rfl⟩
  · rcases h with ⟨-, -, -, rfl⟩ | ⟨hp, rfl⟩ | ⟨-, rfl⟩ | ⟨-, rfl⟩
    · exact .inl ⟨rfl, rfl, rfl, rfl⟩
    · exact .inr (.inl ⟨hp, hl, v, hv, rfl⟩)
    · exact .inl ⟨rfl, rfl, rfl, rfl⟩
    · exact .inl ⟨rfl, rfl, rfl, rfl⟩
  · rcases matchCheck_cases s with ⟨-, e⟩ | ⟨-, e⟩ <;> rw [e] <;> exact .inl ⟨rfl, rfl, rfl, rfl⟩
  · exact .inr (.inr ⟨hp, rfl⟩)

/-- The byte at a valid source is the output byte as many positions back as the distance (R17, R99). -/
theorem OutputMirrored.source_in_output {s : State} (hwf : OutputWf s) (h : OutputMirrored s)
    (hsrc : backRefInvalid s.pos s.msrc s.outCount = false) :
    Memory.read .out s.out (s.outCount - (distance s.pos s.msrc).toNat) = some (winSlot s s.msrc) := by
  obtain ⟨one_le, le_window⟩ := distance_bounds s.pos s.msrc
  have slot : s.pos - BitVec.ofNat 12 (distance s.pos s.msrc).toNat = s.msrc :=
    sub_eq_of_eq_add (add_distance s.pos s.msrc).symm
  rw [h.read_out_back hwf one_le le_window (backRefInvalid_eq_false_iff.1 hsrc), winRead, slot]

/-- A byte of the output after a sequencer step stood there before, or the step is a LIT that read it at the cursor. -/
theorem seqStep_output_source {s t : State} (hi : EngineInv s) (hw : WindowInv s) (h : seqStep s = .next t) {a : Nat} {b : Byte}
    (hb : Memory.read .out t.out a = some b) :
    (∃ x, Memory.read .out s.out x = some b) ∨
    (s.phase = .lit ∧ s.inPos < s.inLen ∧ Memory.read .cs s.cs s.inPos = some b ∧ t.inPos = s.inPos + 1) := by
  have running := ne_idle_of_seqStep h
  rcases seqStep_output_cases h with same | ⟨hp, hl, v, hv, rfl⟩ | ⟨hp, rfl⟩
  · exact .inl ⟨a, same.out ▸ hb⟩
  · rw [read_out_putLiteral (s := advance s) hi.outWf] at hb
    split_ifs at hb
    · cases hb
      exact .inr ⟨hp, hl, hv, rfl⟩
    · exact .inl ⟨a, hb⟩
  · rw [read_out_copyStep hi.outWf] at hb
    split_ifs at hb
    · exact .inl ⟨_, ((windowInv_iff.1 hw running).source_in_output (hi.outputWf running) (hi.copySource hp)).trans hb⟩
    · exact .inl ⟨a, hb⟩

/-- Both invariants together are kept by the phase machine. -/
theorem seqStep_keeps_invariants {s t : State} (hs : EngineInv s ∧ WindowInv s) (h : seqStep s = .next t) :
    EngineInv t ∧ WindowInv t :=
  ⟨seqStep_keeps_engineInv hs.1 h, seqStep_keeps_windowInv hs.1 hs.2 h⟩

/-- Every state of a decode meets both invariants, whatever ran before it. -/
theorem seqSteps_start_invariants {j l n : Nat} {s t : State} (hcs : Memory.wf .cs s.cs = true)
    (h : seqSteps j (start l n s) = .next t) : EngineInv t ∧ WindowInv t :=
  seqSteps_keeps (P := fun u => EngineInv u ∧ WindowInv u) (fun _ _ => seqStep_keeps_invariants)
    ⟨start_engineInv l n hcs, windowInv_iff.2 fun _ => start_outputMirrored l n s⟩ h

/-- The cursor has passed a literal's byte when it is in the output. -/
theorem seqStep_keeps_outFromStream {s t : State} (hi : EngineInv s) (hw : WindowInv s) (ho : OutFromStream s)
    (h : seqStep s = .next t) : OutFromStream t := by
  obtain ⟨cs, -⟩ := seqStep_keeps h
  have advanced : s.inPos ≤ t.inPos := by rcases seqStep_inPos h with e | ⟨-, e⟩ <;> omega
  intro a b hb
  rw [cs]
  rcases seqStep_output_source hi hw h hb with ⟨x, hx⟩ | ⟨-, -, hread, inPos⟩
  · obtain ⟨i, passed, hread⟩ := ho x b hx
    exact ⟨i, passed.trans_le advanced, hread⟩
  · exact ⟨s.inPos, by omega, hread⟩

/-- `b` is the byte at the cursor of a LIT step among the first `j` steps from `s`. -/
def ReadAsLiteral (s : State) (j : Nat) (b : Byte) : Prop :=
  ∃ (i : Nat) (u : State), i < j ∧ seqSteps i s = .next u ∧ u.phase = .lit ∧ u.inPos < s.inLen ∧
    Memory.read .cs s.cs u.inPos = some b

/-- Every output byte of a decode is a literal read by an earlier step: the last step put it there as one, or it stood in the
output before. -/
theorem seqSteps_start_readAsLiteral {s t : State} {l n j : Nat} (hcs : Memory.wf .cs s.cs = true)
    (h : seqSteps j (start l n s) = .next t) {a : Nat} {b : Byte} (hb : Memory.read .out t.out a = some b) :
    ReadAsLiteral (start l n s) j b := by
  induction j generalizing t a with
  | zero =>
    cases h
    cases hb
  | succ j ih =>
    obtain ⟨u, hu, last⟩ := seqSteps_split h
    rw [seqSteps_one] at last
    obtain ⟨ui, uw⟩ := seqSteps_start_invariants hcs hu
    obtain ⟨cs, inLen, -⟩ := seqSteps_start_keeps hu
    rcases seqStep_output_source ui uw last hb with ⟨x, hx⟩ | ⟨hp, hl, hread, -⟩
    · obtain ⟨i, v, earlier, literal⟩ := ih hu hx
      exact ⟨i, v, earlier.trans (Nat.lt_succ_self j), literal⟩
    · exact ⟨j, u, Nat.lt_succ_self j, hu, hp, inLen ▸ hl, cs ▸ hread⟩

/-- Settles O50: a step of the engine alone is a run of the phase machine; and a copied byte stood in the output before, so that an
induction on the steps leads every byte back to a literal's. -/
theorem outputComesFromStream : Obligations.OutputComesFromStream := by
  refine ⟨fun s t hi hw ho alone h => ?_, fun s t l n j hi h a b hb => seqSteps_start_readAsLiteral hi.csWf h hb⟩
  obtain ⟨k, e⟩ := step_alone_eq_seqSteps alone
  have kept : (EngineInv t ∧ WindowInv t) ∧ OutFromStream t :=
    seqSteps_keeps (P := fun u => (EngineInv u ∧ WindowInv u) ∧ OutFromStream u)
      (fun _ _ ⟨hu, fromStream⟩ huv =>
        ⟨seqStep_keeps_invariants hu huv, seqStep_keeps_outFromStream hu.1 hu.2 fromStream huv⟩)
      ⟨⟨hi, hw⟩, ho⟩ (e ▸ h)
  exact kept.2

end Sys2Proof.Machine
end

section
/-! SUPPORT. The state after reset and hard reset (70_reset_and_hazards.md R145). -/

namespace Sys2Proof.Machine

/-- Settles O43: hard reset puts the engine in IDLE, where a read shows the current counters and the sequencer has no step. -/
theorem hardResetValues : Obligations.HardResetValues := by
  intro s
  have stopped : (hardReset s).phase.inRun = false := rfl
  refine ⟨hardReset s, rfl, rfl, rfl, rfl, rfl, rfl, fun k => ?_, rfl, rfl, rfl, fun a => ?_, seqStep_of_not_inRun stopped⟩
  · simp [hostRead, statusWord_hardReset, shownState_of_not_inRun k stopped]
  · exact hostReadOut_eq_none (.inl nofun)

/-- The state after reset is what hard reset makes of it. -/
theorem hardReset_resetAt (p : Config.Params) : hardReset (State.resetAt p) = State.resetAt p := rfl

theorem resetAt_engineInv (p : Config.Params) : EngineInv (State.resetAt p) :=
  hardReset_resetAt p ▸ hardReset_engineInv (s := State.resetAt p) rfl

/-- In IDLE nothing is asked of the Window and the output. -/
theorem resetAt_windowInv (p : Config.Params) : WindowInv (State.resetAt p) :=
  windowInv_iff.2 fun hp => absurd (resetAt_phase p) hp

/-- The counters, lengths and staging registers are 0. -/
theorem resetAt_widthInv (p : Config.Params) : WidthInv (State.resetAt p) := by
  have zero (k : Nat) : 0 < 2 ^ k := Nat.two_pow_pos k
  exact ⟨zero _, zero _, zero _, zero _, zero _, zero _⟩

/-- Settles O46: the values R145 states by definition, and each invariant in IDLE. -/
theorem resetMeetsInvariants : Obligations.ResetMeetsInvariants :=
  ⟨rfl, fun p => ⟨rfl, rfl, rfl, rfl, rfl, resetAt_engineInv p, resetAt_windowInv p, resetAt_widthInv p⟩⟩

end Sys2Proof.Machine
end
